-- ==== Sys2Proof/Word.lean ====
section
/-! DEFINITION. The word types: a register cell, a byte cell and a bit cell
(spec/20_memory.md R60, spec/00_scope.md R11 with `REGW = 32`, R13). -/

namespace Sys2Proof

/-- One cell of the register space `REG`: `REGW = 32` bits (R11, R21). -/
abbrev Word := BitVec 32

/-- One cell of `PIX`, `MSG` or `OUT`: a natural number from 0 to 255 (R13). -/
abbrev Byte := BitVec 8

/-- One cell of `BITS` or `MRKR`: 0 (`false`) or 1 (`true`) (R13). -/
abbrev Bit := Bool

end Sys2Proof
end

