-- ==== Sys2Proof/Config.lean ====
section
/-! DEFINITION. The size parameters of spec/00_scope.md R11, the reference configuration `REF`,
and the free values: the contents of the four memories whose reset contents
spec/10_state.md R42 leaves unspecified. -/

namespace Sys2Proof

/-- The size parameters of R11 other than `REGW`, which is fixed at 32.
A model takes them as arguments; State carries them (log 3). -/
structure Sizes where
  /-- `DIMW`: `WIDTH` and `HEIGHT` are legal when below `2^DIMW`. -/
  dimW    : Nat
  /-- `PIX_SIZE`: number of byte cells of `PIX`. -/
  pixSize : Nat
  /-- `MSG_MAX`: number of byte cells of `MSG`, largest legal `MSG_LEN`. -/
  msgMax  : Nat
  /-- `MLEN_MAX`: number of bit cells of `MRKR`, largest legal `MLEN`. -/
  mlenMax : Nat
  /-- `BITS_MAX`: number of bit cells of `BITS`, largest legal `BITS_LEN`. -/
  bitsMax : Nat
  /-- `OUT_MAX`: number of byte cells of `OUT`. -/
  outMax  : Nat
  deriving DecidableEq, Repr

/-- The reference configuration `REF` of R11. -/
def Config.ref : Sizes :=
  { dimW := 16, pixSize := 4194304, msgMax := 65536, mlenMax := 64,
    bitsMax := 1048576, outMax := 131072 }

/-- FREE VALUE (log 4): what cell `a` of `PIX` holds after reset number `n`, until it is written
(R42: "a model must make no assumption about which"). -/
opaque Config.pixAtReset (n a : Nat) : Byte

/-- FREE VALUE (log 4): what cell `a` of `MSG` holds after reset number `n`, until it is written. -/
opaque Config.msgAtReset (n a : Nat) : Byte

/-- FREE VALUE (log 4): what cell `a` of `OUT` holds after reset number `n`, until it is written. -/
opaque Config.outAtReset (n a : Nat) : Byte

/-- FREE VALUE (log 4): what cell `a` of `BITS` holds after reset number `n`, until it is written. -/
opaque Config.bitsAtReset (n a : Nat) : Bit

end Sys2Proof
end

