-- ==== Sys2Proof/Syntax.lean ====
section
/-! DEFINITION. The eight commands of spec/30_encoding.md R92, one constructor per row of
spec/opcode_table.json. -/

namespace Sys2Proof

/-- A command of HTX. Commands have no operands (R95): each reads and writes the registers and
memories its own rule names. -/
inductive Instr where
  /-- `T2B`, text to bits (R124). -/
  | t2b
  /-- `B2T`, bits to text (R125). -/
  | b2t
  /-- `MRK`, append marker (R147). -/
  | mrk
  /-- `CAP`, check capacity (R162). -/
  | cap
  /-- `EMB`, embed bit sequence (R174). -/
  | emb
  /-- `ENC`, encode (R176). -/
  | enc
  /-- `EXT`, extract bit sequence (R193). -/
  | ext
  /-- `DEC`, decode (R200). -/
  | dec
  deriving DecidableEq, Repr

end Sys2Proof
end

