-- ==== Sys2Proof/WellFormed.lean ====
section
/-! DEFINITION. What is well formed: a command (always: it has no operand to be wrong), a command
word as bits, and a choice of the size parameters. -/

namespace Sys2Proof

/-- Every command is well formed: R95 gives it no operand that could be out of range. -/
def Instr.wellFormed : Instr → Bool
  | .t2b => true
  | .b2t => true
  | .mrk => true
  | .cap => true
  | .emb => true
  | .enc => true
  | .ext => true
  | .dec => true

/-- A command word is legal when bits 31 to 4 are 0 (R94) and bits 3 to 0 are one of the eight
opcodes 1 to 8 (R92, R93). -/
def wordWellFormed (w : Word) : Bool :=
  w.extractLsb' 4 28 == 0#28 && decide (1 ≤ (w.extractLsb' 0 4).toNat)
    && decide ((w.extractLsb' 0 4).toNat ≤ 8)

/-- The constraints R11 puts on the size parameters, with `REGW = 32`. -/
abbrev Sizes.Legal (z : Sizes) : Prop :=
  2 * z.dimW ≤ 32 ∧ z.pixSize < 2 ^ 32 ∧ 8 * z.msgMax + z.mlenMax ≤ z.bitsMax ∧
    1 ≤ z.mlenMax ∧ z.bitsMax < 2 ^ 32 ∧ z.bitsMax / 8 ≤ z.outMax

end Sys2Proof
end

