-- ==== Sys2Proof/Decode.lean ====
section
/-! DEFINITION. The command word of spec/30_encoding.md R91: its fields, the decoder (total, with a
named rejection for every word that is no command) and the encoder, both from the map of R92. -/

namespace Sys2Proof

/-- Why a word is no command. Either way the block answers `ERR_CMD` (R223). -/
inductive Reject where
  /-- One of bits 31 to 4 is set (R94). -/
  | reservedBits
  /-- `ZERO` is 0 and `OP` is 0 or 9 to 15 (R93). -/
  | reservedOpcode
  deriving DecidableEq, Repr

/-- Bits 31 to 4 of a command word, which must be 0 (R91). -/
def zeroField (w : Word) : BitVec 28 := w.extractLsb' 4 28

/-- Bits 3 to 0 of a command word, the opcode (R91). -/
def opField (w : Word) : BitVec 4 := w.extractLsb' 0 4

/-- The command an opcode selects (R92), or none for a reserved one (R93). -/
def decodeOp (op : BitVec 4) : Option Instr :=
  match op.toNat with
  | 1 => some .t2b
  | 2 => some .b2t
  | 3 => some .mrk
  | 4 => some .cap
  | 5 => some .emb
  | 6 => some .enc
  | 7 => some .ext
  | 8 => some .dec
  | _ => none

/-- The decoder of command words: total (R94), reserved bits first. -/
def decode (w : Word) : Except Reject Instr :=
  if zeroField w = 0#28 then
    match decodeOp (opField w) with
    | some i => .ok i
    | none => .error .reservedOpcode
  else .error .reservedBits

/-- The `OP` column of R92. -/
def opcode : Instr → BitVec 4
  | .t2b => 0b0001#4
  | .b2t => 0b0010#4
  | .mrk => 0b0011#4
  | .cap => 0b0100#4
  | .emb => 0b0101#4
  | .enc => 0b0110#4
  | .ext => 0b0111#4
  | .dec => 0b1000#4

/-- The encoder: 28 zero bits, then the opcode (R91). -/
def encode (i : Instr) : Word := 0#28 ++ opcode i

/-- The decoder on an instruction whose bits are numbered as spec/opcode_table.json numbers them. A
command word is one whole register word (R69: no byte order), so the bits are the word itself. -/
def decodeTableWord (nbits w : Nat) : Option Instr :=
  match decode (BitVec.ofNat 32 (w % 2 ^ nbits)) with
  | .ok i => some i
  | .error _ => none

end Sys2Proof
end

