-- ==== Sys2Proof/Machine/State.lean ====
section
/-! DEFINITION. The state of one HTX instance (spec/10_state.md R20: eleven registers and five
memories, nothing else), the model's own fields beside it (the size parameters, the reset count,
the host's pending operations and what its reads returned), the reasons a step could stop, and the
state after reset (R42). -/

namespace Sys2Proof.Machine

/-- A memory as plain data: (cell address, cell) pairs, addresses strictly rising. A `Memory Byte`
is a list of `Host.Cell`. -/
abbrev Memory (α : Type) := List (Nat × α)

/-- The six separately addressed spaces (R60). -/
inductive Space where
  | reg
  | pix
  | msg
  | out
  | bits
  | mrkr
  deriving DecidableEq, Repr

/-- What the host can do to the block, each between commands (R75): read a cell, write a cell
(R62; a write to `REG:0` also runs a command, R22), or reset the block (R260). -/
inductive HostEvent where
  | read  (space : Space) (addr : Nat)
  | write (space : Space) (addr : Nat) (data : Word)
  | reset
  deriving DecidableEq, Repr

/-- The registers 0 to 10 of the space `REG` (R21), each `REGW = 32` bits. -/
structure Regs where
  /-- Register 0, `CMD`: the last command word written (R22). -/
  cmd     : Word
  /-- Register 1, `RESULT`: the code of the last command's result kind (R23). -/
  result  : Word
  /-- Register 2, `WIDTH` (R24). -/
  width   : Word
  /-- Register 3, `HEIGHT` (R25). -/
  height  : Word
  /-- Register 4, `NCH`: channels per pixel (R26). -/
  nch     : Word
  /-- Register 5, `CHSEL`: the designated channel (R27). -/
  chsel   : Word
  /-- Register 6, `MLEN`: marker length in bits (R28). -/
  mlen    : Word
  /-- Register 7, `MSG_LEN`: message length in code units (R29). -/
  msgLen  : Word
  /-- Register 8, `BITS_LEN`: length of the bit sequence in `BITS` (R30). -/
  bitsLen : Word
  /-- Register 9, `OUT_LEN`: length of the text in `OUT` (R32). -/
  outLen  : Word
  /-- Register 10, `CUR`: pixels visited by the last scan (R31). -/
  cur     : Word
  deriving DecidableEq, Repr

/-- One HTX instance, with the host operations still to come. -/
structure State where
  /-- The space `REG` (R21). -/
  regs   : Regs
  /-- `PIX`, the pixel memory: byte cells (R34). -/
  pix    : List Host.Cell
  /-- `MSG`, the message memory: byte cells (R35). -/
  msg    : List Host.Cell
  /-- `MRKR`, the marker memory: bit cells (R36). -/
  mrkr   : List (Nat × Bit)
  /-- `BITS`, the bit buffer: bit cells (R37). -/
  bits   : List (Nat × Bit)
  /-- `OUT`, the output memory: byte cells (R38). -/
  out    : List Host.Cell
  /-- MODEL'S OWN (log 3): the size parameters of R11; no step changes them. -/
  sizes  : Sizes
  /-- MODEL'S OWN (log 4): how many resets came before the current one; it selects the free
  contents of the memories R42 leaves unspecified. -/
  resets : Nat
  /-- MODEL'S OWN (log 1): the host operations still to be done, the next one first (R103). -/
  script : List HostEvent
  /-- MODEL'S OWN (log 2): what the host's reads returned, oldest first. -/
  reads  : List Word
  deriving DecidableEq, Repr

/-- Reasons for the machine to stop with a fault: none. HTX "has no fatal/unrecoverable states"
(R230) and every command ends in the state its rule gives (R205). Having no constructor is safe: no
step can stop this way (log 7). -/
inductive Fault where
  deriving DecidableEq, Repr

/-- Reasons for the model to refuse a step. -/
inductive Refusal where
  /-- The dispatcher raises it for a command without a meaning. No arm of `exec` does: all eight
  commands have their meaning. Safe: it stops. -/
  | notModelled (mnemonic : String)
  deriving DecidableEq, Repr

/-- The register values after reset (R42). -/
def Regs.reset : Regs :=
  { cmd := 0#32, result := 0#32, width := 0#32, height := 0#32, nch := 3#32, chsel := 2#32,
    mlen := 8#32, msgLen := 0#32, bitsLen := 0#32, outLen := 0#32, cur := 0#32 }

/-- The state right after reset (R42, R260): the registers as R42 says, every cell of `MRKR` 0
(nothing listed), `PIX`, `MSG`, `BITS` and `OUT` unspecified (nothing listed: free values, log 4).
The sizes are `REF` (log 3) and no host operation is pending (log 1). -/
def State.reset : State :=
  { regs := Regs.reset, pix := [], msg := [], mrkr := [], bits := [], out := [],
    sizes := Config.ref, resets := 0, script := [], reads := [] }

end Sys2Proof.Machine
end

