-- ==== Sys2Proof/Machine/Flags.lean ====
section
/-! DEFINITION. HTX has no condition flags; its one status value is `RESULT` (spec/10_state.md R23).
This file holds the result kinds and their codes (spec/60_exceptions.md R220). -/

namespace Sys2Proof.Machine

/-- The result kinds of R220. -/
inductive ResultKind where
  /-- No command has run since reset; written by reset only (R225). -/
  | none
  /-- The command did what its rule says (R225). -/
  | ok
  /-- The payload bit length is greater than `W*H` (R221). -/
  | capacityError
  /-- The scan ended without a marker match (R222). -/
  | notFound
  /-- The word written to `CMD` is no command word (R223). -/
  | errCmd
  /-- A register value the command uses is illegal (R224). -/
  | errCfg
  deriving DecidableEq, Repr

/-- The numeric code `RESULT` holds for a kind (the table of R220). -/
def resultCode : ResultKind → Word
  | .none => 0#32
  | .ok => 1#32
  | .capacityError => 2#32
  | .notFound => 3#32
  | .errCmd => 4#32
  | .errCfg => 5#32

end Sys2Proof.Machine
end

