-- ==== Sys2Proof/Machine/Ops.lean ====
section
/-! DEFINITION. The named operations over memories and registers (spec/00_scope.md R15,
spec/20_memory.md R60 to R62), and the taking of an "exception", which in HTX is the writing of a
result kind (spec/60_exceptions.md R228). -/

namespace Sys2Proof.Machine

/-! ### Memories as lists of cells -/

/-- The cell listed at address `a`, if any. -/
def Memory.lookup {α : Type} : Memory α → Nat → Option α
  | [], _ => none
  | (b, w) :: m, a => if a = b then some w else Memory.lookup m a

/-- List the value `v` at address `a`, keeping addresses strictly rising. -/
def Memory.insert {α : Type} : Memory α → Nat → α → Memory α
  | [], a, v => [(a, v)]
  | (b, w) :: m, a, v =>
    if a < b then (a, v) :: (b, w) :: m
    else if a = b then (a, v) :: m
    else (b, w) :: Memory.insert m a v

/-- List nothing at address `a`. -/
def Memory.erase {α : Type} (m : Memory α) (a : Nat) : Memory α :=
  m.filter (fun c => c.1 != a)

/-- One cell write. `unlisted` is what an unlisted cell reads as, where it has a value: writing that
value takes the entry out, so that the form stays canonical. -/
def Memory.write {α : Type} [DecidableEq α] (unlisted : Option α) (m : Memory α) (a : Nat) (v : α) :
    Memory α :=
  if unlisted = some v then Memory.erase m a else Memory.insert m a v

/-- One cell read. Where an unlisted cell has no recorded value, it reads as the free value `free`. -/
def Memory.read {α : Type} (unlisted : Option α) (free : α) (m : Memory α) (a : Nat) : α :=
  match Memory.lookup m a with
  | some v => v
  | none => unlisted.getD free

/-- The canonical form, for a memory of `size` cells: addresses strictly rising and below `size`,
and no entry equal to what an unlisted cell reads as. -/
abbrev Memory.wf {α : Type} [DecidableEq α] (unlisted : Option α) (size : Nat) (m : Memory α) :
    Prop :=
  m.Pairwise (fun c d => c.1 < d.1) ∧ ∀ c ∈ m, c.1 < size ∧ unlisted ≠ some c.2

/-- What an unlisted cell of `PIX`, `MSG` or `OUT` reads as: no recorded value (R42, log 4). -/
abbrev unlistedByte : Option Byte := none

/-- What an unlisted cell of `BITS` reads as: no recorded value (R42, log 4). -/
abbrev unlistedBit : Option Bit := none

/-- What an unlisted cell of `MRKR` reads as: 0, its reset value (R36, R42). -/
abbrev unlistedMarkerBit : Option Bit := some false

/-! ### One cell of each memory: `MemRead(S:a, 1)` and `MemWrite(S:a, 1, v)` (R15) -/

/-- `MemRead(PIX:a, 1)`. -/
def readPix (s : State) (a : Nat) : Byte :=
  Memory.read unlistedByte (Config.pixAtReset s.resets a) s.pix a

/-- `MemWrite(PIX:a, 1, v)`. -/
def writePix (s : State) (a : Nat) (v : Byte) : State :=
  { s with pix := Memory.write unlistedByte s.pix a v }

/-- `MemRead(MSG:a, 1)`. -/
def readMsg (s : State) (a : Nat) : Byte :=
  Memory.read unlistedByte (Config.msgAtReset s.resets a) s.msg a

/-- The host's write to a cell of `MSG`; no command writes one (R35). -/
def writeMsg (s : State) (a : Nat) (v : Byte) : State :=
  { s with msg := Memory.write unlistedByte s.msg a v }

/-- `MemRead(MRKR:a, 1)`. -/
def readMrkr (s : State) (a : Nat) : Bit :=
  Memory.read unlistedMarkerBit false s.mrkr a

/-- The host's write to a cell of `MRKR`; no command writes one (R36). -/
def writeMrkr (s : State) (a : Nat) (v : Bit) : State :=
  { s with mrkr := Memory.write unlistedMarkerBit s.mrkr a v }

/-- `MemRead(BITS:a, 1)`. -/
def readBit (s : State) (a : Nat) : Bit :=
  Memory.read unlistedBit (Config.bitsAtReset s.resets a) s.bits a

/-- `MemWrite(BITS:a, 1, v)`. -/
def writeBit (s : State) (a : Nat) (v : Bit) : State :=
  { s with bits := Memory.write unlistedBit s.bits a v }

/-- `MemRead(OUT:a, 1)`, for the host. -/
def readOut (s : State) (a : Nat) : Byte :=
  Memory.read unlistedByte (Config.outAtReset s.resets a) s.out a

/-- `MemWrite(OUT:a, 1, v)`. -/
def writeOut (s : State) (a : Nat) (v : Byte) : State :=
  { s with out := Memory.write unlistedByte s.out a v }

/-! ### Runs of cells, one cell at a time in rising order -/

/-- The `n` cells of `BITS` from address `a` on, as a bit sequence. -/
def readBits (s : State) (a n : Nat) : List Bit :=
  (List.range n).map (fun i => readBit s (a + i))

/-- Write a bit sequence to the cells of `BITS` from address `a` on. -/
def writeBits (s : State) (a : Nat) : List Bit → State
  | [] => s
  | b :: bs => writeBits (writeBit s a b) (a + 1) bs

/-- Write a byte list to the cells of `OUT` from address `a` on. -/
def writeOuts (s : State) (a : Nat) : List Byte → State
  | [] => s
  | b :: bs => writeOuts (writeOut s a b) (a + 1) bs

/-! ### Register writes of commands (`reg[N] <- v`, R15) -/

/-- `reg[CMD] <- w` (R22). -/
def setCmd (s : State) (w : Word) : State := { s with regs := { s.regs with cmd := w } }

/-- `reg[BITS_LEN] <- n`; exact below `2^REGW` (R12, log 9). -/
def setBitsLen (s : State) (n : Nat) : State :=
  { s with regs := { s.regs with bitsLen := BitVec.ofNat 32 n } }

/-- `reg[OUT_LEN] <- n`; exact below `2^REGW` (R12, log 9). -/
def setOutLen (s : State) (n : Nat) : State :=
  { s with regs := { s.regs with outLen := BitVec.ofNat 32 n } }

/-- `reg[CUR] <- n`; exact below `2^REGW` (R12, log 9). -/
def setCur (s : State) (n : Nat) : State :=
  { s with regs := { s.regs with cur := BitVec.ofNat 32 n } }

/-! ### Taking an exception

R228: "write the kind's code to `RESULT`, make the other changes the table of rule R220 lists, end
the command. No state is saved anywhere, no control is transferred". The other changes stand in each
command's meaning. There is no return operation to model: R230, "there is no return command and
nothing to restore". -/

/-- End a command with a result kind: `reg[RESULT] <- code(K)` (R15 `raise`, R228). -/
def raise (k : ResultKind) (s : State) : State :=
  { s with regs := { s.regs with result := resultCode k } }

/-! ### Reset -/

/-- The reset event (R260): registers and `MRKR` to their reset values, `PIX`, `MSG`, `BITS` and
`OUT` unspecified anew (the next reset number selects fresh free values, log 4). The size
parameters, the host's pending operations and its record of reads are not the block's state. -/
def applyReset (s : State) : State :=
  { s with regs := Regs.reset, pix := [], msg := [], mrkr := [], bits := [], out := [],
           resets := s.resets + 1 }

end Sys2Proof.Machine
end

