-- ==== Sys2Proof/Machine/Operands.lean ====
section
/-! DEFINITION. The operands of the commands, all implicit (spec/30_encoding.md R95): the shorthand
of spec/10_state.md R43, the pixel layout of spec/20_memory.md R65 to R67, the data sequences of
R43, and the legality predicates of spec/60_exceptions.md R226. -/

namespace Sys2Proof.Machine

/-! ### Register values as natural numbers (R43, R12) -/

/-- `W = reg[WIDTH]`. -/
def widthOf (s : State) : Nat := s.regs.width.toNat

/-- `H = reg[HEIGHT]`. -/
def heightOf (s : State) : Nat := s.regs.height.toNat

/-- `N = reg[NCH]`. -/
def nchOf (s : State) : Nat := s.regs.nch.toNat

/-- `C = reg[CHSEL]`. -/
def chselOf (s : State) : Nat := s.regs.chsel.toNat

/-- `M = reg[MLEN]`. -/
def mlenOf (s : State) : Nat := s.regs.mlen.toNat

/-- `L = reg[MSG_LEN]`. -/
def msgLenOf (s : State) : Nat := s.regs.msgLen.toNat

/-- `reg[BITS_LEN]`. -/
def bitsLenOf (s : State) : Nat := s.regs.bitsLen.toNat

/-- `reg[OUT_LEN]`. -/
def outLenOf (s : State) : Nat := s.regs.outLen.toNat

/-- `reg[CUR]`. -/
def curOf (s : State) : Nat := s.regs.cur.toNat

/-- `CAPACITY = W * H`, without wrap-around (R43, R160). -/
def capacityOf (s : State) : Nat := widthOf s * heightOf s

/-! ### The pixel grid in `PIX` -/

/-- The pixel index of column `x`, row `y` in a grid of width `w` (R65). -/
def pixelIndex (w x y : Nat) : Nat := y * w + x

/-- `PixAddr(p, c) = p*N + c` (R65). -/
def pixAddr (n p c : Nat) : Nat := p * n + c

/-- The cell of the designated channel of pixel `p`: `PixAddr(p, C)` (R173, R192). -/
def designatedCell (s : State) (p : Nat) : Nat := pixAddr (nchOf s) p (chselOf s)

/-! ### The data sequences of R43 -/

/-- `Bits()`: `BITS:0 .. BITS:(reg[BITS_LEN]-1)`. -/
def bitsSeq (s : State) : List Bit := readBits s 0 (bitsLenOf s)

/-- `Msg()`: `MSG:0 .. MSG:(L-1)`. -/
def msgSeq (s : State) : List Byte := (List.range (msgLenOf s)).map (readMsg s)

/-- `Out()`: `OUT:0 .. OUT:(reg[OUT_LEN]-1)`. -/
def outSeq (s : State) : List Byte := (List.range (outLenOf s)).map (readOut s)

/-- `Marker()`: `MRKR:0 .. MRKR:(M-1)` (R141). -/
def markerSeq (s : State) : List Bit := (List.range (mlenOf s)).map (readMrkr s)

/-! ### Legality of the configuration (R226) -/

/-- `DimOK`. -/
abbrev DimOK (s : State) : Prop := widthOf s < 2 ^ s.sizes.dimW ∧ heightOf s < 2 ^ s.sizes.dimW

/-- `GridOK`. -/
abbrev GridOK (s : State) : Prop :=
  DimOK s ∧ (nchOf s = 3 ∨ nchOf s = 4) ∧ chselOf s ≤ 2 ∧
    widthOf s * heightOf s * nchOf s ≤ s.sizes.pixSize

/-- `MarkerOK`. -/
abbrev MarkerOK (s : State) : Prop := 1 ≤ mlenOf s ∧ mlenOf s ≤ s.sizes.mlenMax

/-- `MsgOK`. -/
abbrev MsgOK (s : State) : Prop := msgLenOf s ≤ s.sizes.msgMax ∧ 8 * msgLenOf s ≤ s.sizes.bitsMax

/-- `BitsOK`. -/
abbrev BitsOK (s : State) : Prop := bitsLenOf s ≤ s.sizes.bitsMax

/-- What `MRK` needs (R226). -/
abbrev MrkOK (s : State) : Prop :=
  MarkerOK s ∧ BitsOK s ∧ bitsLenOf s + mlenOf s ≤ s.sizes.bitsMax

/-- What `EMB` needs (R226). -/
abbrev EmbOK (s : State) : Prop := GridOK s ∧ BitsOK s

/-- What `ENC` needs (R226). -/
abbrev EncOK (s : State) : Prop :=
  MsgOK s ∧ MarkerOK s ∧ GridOK s ∧ 8 * msgLenOf s + mlenOf s ≤ s.sizes.bitsMax

/-- What `EXT` and `DEC` need (R226). -/
abbrev ScanOK (s : State) : Prop := GridOK s ∧ MarkerOK s ∧ capacityOf s ≤ s.sizes.bitsMax

/-! ### Data words of the host (R62) -/

/-- `d[7:0]`, what a host write stores in a byte cell. -/
def lowByte (d : Word) : Byte := d.extractLsb' 0 8

/-- `d[0]`, what a host write stores in a bit cell. -/
def lowBit (d : Word) : Bit := d.getLsbD 0

/-- A byte cell as a host read returns it: that number (R15: no value is widened with a sign). -/
def byteWord (v : Byte) : Word := v.setWidth 32

/-- A bit cell as a host read returns it: 0 or 1. -/
def bitWord (b : Bit) : Word := (BitVec.ofBool b).setWidth 32

/-- A bit used as a byte, 0 or 1 (R13, R15). -/
def bitByte (b : Bit) : Byte := (BitVec.ofBool b).setWidth 8

end Sys2Proof.Machine
end

