-- ==== Sys2Proof/Machine/Codec.lean ====
section
/-! DEFINITION. Family 1, the Bit/Text Codec (spec/40_codec.md): `textToBits`, `bitsToText`, and the
commands `T2B` and `B2T`. -/

namespace Sys2Proof.Machine

/-- One code unit as 8 bits, most significant bit first (R68, R122). -/
def byteBits (v : Byte) : List Bit := (List.range 8).map (fun k => v.getLsbD (7 - k))

/-- `textToBits(m)` (R122). -/
def textToBits (m : List Byte) : List Bit := m.flatMap byteBits

/-- The value of a group of bits, first bit most significant: the loop `v <- 2*v + bit` of R125. -/
def byteOfBits (s : List Bit) : Byte := s.foldl (fun v b => 2#8 * v + bitByte b) 0#8

/-- `bitsToText(s)`: full groups of 8 from the front; a shorter last group is dropped (R123). -/
def bitsToText : List Bit → List Byte
  | b0 :: b1 :: b2 :: b3 :: b4 :: b5 :: b6 :: b7 :: s =>
    byteOfBits [b0, b1, b2, b3, b4, b5, b6, b7] :: bitsToText s
  | _ => []

/-- The body of `T2B`, without its check and without writing `RESULT` (R124, R176). -/
def t2bBody (s : State) : State :=
  setBitsLen (writeBits s 0 (textToBits (msgSeq s))) (8 * msgLenOf s)

/-- `T2B`, text to bits (R124). -/
def execT2b (s : State) : Host.Outcome State Fault Refusal :=
  if MsgOK s then .next (raise .ok (t2bBody s)) else .next (raise .errCfg s)

/-- The body of `B2T`, without its check and without writing `RESULT` (R125, R200). -/
def b2tBody (s : State) : State :=
  setOutLen (writeOuts s 0 (bitsToText (bitsSeq s))) (bitsLenOf s / 8)

/-- `B2T`, bits to text (R125). -/
def execB2t (s : State) : Host.Outcome State Fault Refusal :=
  if BitsOK s then .next (raise .ok (b2tBody s)) else .next (raise .errCfg s)

end Sys2Proof.Machine
end

