-- ==== Sys2Proof/Machine/Marker.lean ====
section
/-! DEFINITION. Family 2, the Marker (spec/41_marker.md): the suffix test, the rolling detector that
may compute it, where the first match falls, and the command `MRK`. The pure functions take the
marker `mk` as an argument; the machine passes `Marker()`. -/

namespace Sys2Proof.Machine

/-- `MarkerMatch(s)`: the last `M` bits of `s` are the marker (R144); false when `s` is shorter than
the marker (R145). -/
def markerMatch (mk s : List Bit) : Bool :=
  decide (mk.length ≤ s.length) && s.drop (s.length - mk.length) == mk

/-- One step of the incremental detector of R146 on its window and its count. -/
def detectorStep (M : Nat) (d : List Bit × Nat) (b : Bit) : List Bit × Nat :=
  (if M ≤ d.2 then d.1.drop 1 ++ [b] else d.1 ++ [b], d.2 + 1)

/-- The detector's window and count after the bits `s`, from an empty window (R146). -/
def detectorRun (M : Nat) (s : List Bit) : List Bit × Nat := s.foldl (detectorStep M) ([], 0)

/-- The detector reports a match when its count has reached `M` and its window is the marker
(R146). -/
def detectorReports (mk : List Bit) (d : List Bit × Nat) : Bool :=
  decide (mk.length ≤ d.2) && d.1 == mk

/-- `FirstMatch(s)`: the least `n` in `M .. len(s)` such that `MarkerMatch(take(n, s))`, or none
(R148). -/
def firstMatch (mk s : List Bit) : Option Nat :=
  (List.range (s.length + 1)).find? (fun n => decide (mk.length ≤ n) && markerMatch mk (s.take n))

/-- `Payload(m) = textToBits(m) ++ Marker()` (R97, R171). -/
def payload (mk : List Bit) (m : List Byte) : List Bit := textToBits m ++ mk

/-- `NoEarlyMarker(m)`: the first match in the payload is at its very end (R149). -/
abbrev NoEarlyMarker (mk : List Bit) (m : List Byte) : Prop :=
  firstMatch mk (payload mk m) = some (8 * m.length + mk.length)

/-- The suffix test of the scan on the machine: do the last `M` of the first `n` cells of `BITS`
equal the marker (R144, read cell by cell; R145)? -/
def matchedAt (s : State) (n : Nat) : Bool :=
  decide (mlenOf s ≤ n) && readBits s (n - mlenOf s) (mlenOf s) == markerSeq s

/-- The body of `MRK`, without its check and without writing `RESULT` (R147, R176). -/
def mrkBody (s : State) : State :=
  setBitsLen (writeBits s (bitsLenOf s) (markerSeq s)) (bitsLenOf s + mlenOf s)

/-- `MRK`, append marker (R147). -/
def execMrk (s : State) : Host.Outcome State Fault Refusal :=
  if MrkOK s then .next (raise .ok (mrkBody s)) else .next (raise .errCfg s)

end Sys2Proof.Machine
end

