-- ==== Sys2Proof/Machine/Decoder.lean ====
section
/-! DEFINITION. Family 5, the Decoder (spec/44_decoder.md): one pixel, the scan with the marker test
after every bit, and the commands `EXT` and `DEC`. -/

namespace Sys2Proof.Machine

/-- `ExtractBit(v) = v[0]` (R191). -/
def extractBit (v : Byte) : Bit := v.getLsbD 0

/-- The read, the append and the cursor of `ExtractStep(p)` (R192); the scan makes the test. -/
def extractStep (s : State) (p : Nat) : State :=
  setCur (writeBit s p (extractBit (readPix s (designatedCell s p)))) (p + 1)

/-- The scan with `k` pixels left, from pixel index `p` on: stop at the first match and strip the
marker, or end with `NOT_FOUND` when no pixel is left (R193, R194, R195). -/
def extractScan : Nat → Nat → State → State
  | 0, p, s => raise .notFound (setBitsLen s p)
  | k + 1, p, s =>
    if matchedAt (extractStep s p) (p + 1) then
      raise .ok (setBitsLen (extractStep s p) (p + 1 - mlenOf s))
    else extractScan k (p + 1) (extractStep s p)

/-- The body of `EXT`, without its check (R193). It writes `RESULT`. -/
def extBody (s : State) : State := extractScan (capacityOf s) 0 (setCur s 0)

/-- `EXT`, extract bit sequence (R193). -/
def execExt (s : State) : Host.Outcome State Fault Refusal :=
  if ScanOK s then .next (extBody s) else .next (raise .errCfg s)

/-- What `DEC` does after the body of `EXT`: the body of `B2T` when the marker was found, else no
text (R200). -/
def decTail (s : State) : State :=
  if s.regs.result = resultCode .ok then raise .ok (b2tBody s) else setOutLen s 0

/-- `DEC`, decode (R200). -/
def execDec (s : State) : Host.Outcome State Fault Refusal :=
  if ScanOK s then .next (decTail (extBody s)) else .next (raise .errCfg s)

/-- The designated-channel LSBs of the whole grid in scan order: the sequence `S` of R193. -/
def gridLsbs (s : State) : List Bit :=
  (List.range (capacityOf s)).map (fun p => extractBit (readPix s (designatedCell s p)))

end Sys2Proof.Machine
end

