-- ==== Sys2Proof/Machine/Capacity.lean ====
section
/-! DEFINITION. Family 3, the Capacity Validator (spec/42_capacity.md): the check and the command
`CAP`. -/

namespace Sys2Proof.Machine

/-- `checkCapacity(n, W, H)` succeeds exactly when `n > W * H` is false (R161). -/
def fits (n w h : Nat) : Bool := !decide (w * h < n)

/-- `CAP`, check capacity (R162). -/
def execCap (s : State) : Host.Outcome State Fault Refusal :=
  if DimOK s then
    if fits (bitsLenOf s) (widthOf s) (heightOf s) then .next (raise .ok s)
    else .next (raise .capacityError s)
  else .next (raise .errCfg s)

end Sys2Proof.Machine
end

