-- ==== Sys2Proof/Machine/Encoder.lean ====
section
/-! DEFINITION. Family 4, the Encoder (spec/43_encoder.md): one bit, one pixel, the scan, and the
commands `EMB` and `ENC`. -/

namespace Sys2Proof.Machine

/-- `EmbedBit(v, b) = (v & 0xFE) | b` (R172). -/
def embedBit (v : Byte) (b : Bit) : Byte := (v &&& 0xFE#8) ||| bitByte b

/-- `EmbedStep(p)`: the read-modify-write of the designated channel of pixel `p`, and the advance of
the cursor (R173). -/
def embedStep (s : State) (p : Nat) : State :=
  setCur
    (writePix s (designatedCell s p) (embedBit (readPix s (designatedCell s p)) (readBit s p)))
    (p + 1)

/-- `k` steps of the scan, from pixel index `p` on in rising order (R66, R174). -/
def embedScan : Nat → Nat → State → State
  | 0, _, s => s
  | k + 1, p, s => embedScan k (p + 1) (embedStep s p)

/-- The body of `EMB`, without its check: capacity first, before any access to `PIX`, then the scan
(R163, R174). It writes `RESULT`. -/
def embBody (s : State) : State :=
  if fits (bitsLenOf s) (widthOf s) (heightOf s) then
    raise .ok (embedScan (bitsLenOf s) 0 (setCur s 0))
  else raise .capacityError (setCur s 0)

/-- `EMB`, embed bit sequence (R174). -/
def execEmb (s : State) : Host.Outcome State Fault Refusal :=
  if EmbOK s then .next (embBody s) else .next (raise .errCfg s)

/-- `ENC`, encode: every check before any change, then the bodies of `T2B`, `MRK` and `EMB`
(R176). -/
def execEnc (s : State) : Host.Outcome State Fault Refusal :=
  if EncOK s then .next (embBody (mrkBody (t2bBody s))) else .next (raise .errCfg s)

end Sys2Proof.Machine
end

