-- ==== Sys2Proof/Machine/Dispatch.lean ====
section
/-! DEFINITION. One arm per command: the meaning it calls. A command runs with its word already in
`CMD` (spec/10_state.md R22). -/

namespace Sys2Proof.Machine

/-- Run one command to its end (R9, R92). -/
def exec (i : Instr) (s : State) : Host.Outcome State Fault Refusal :=
  match i with
  | .t2b => Sys2Proof.Machine.execT2b s
  | .b2t => Sys2Proof.Machine.execB2t s
  | .mrk => Sys2Proof.Machine.execMrk s
  | .cap => Sys2Proof.Machine.execCap s
  | .emb => Sys2Proof.Machine.execEmb s
  | .enc => Sys2Proof.Machine.execEnc s
  | .ext => Sys2Proof.Machine.execExt s
  | .dec => Sys2Proof.Machine.execDec s

end Sys2Proof.Machine
end

