-- ==== Sys2Proof/Machine/HostAccess.lean ====
section
/-! DEFINITION. What the host can do to the block between commands: `HostRead`, `HostWrite`
(spec/20_memory.md R62 to R64), the start of a command by a write to `CMD` (spec/10_state.md R22),
and reset (spec/70_reset_and_hazards.md R260). -/

namespace Sys2Proof.Machine

/-- A host read of register number `a`; a reserved number reads 0 (R21, R33). -/
def hostReadReg (s : State) (a : Nat) : Word :=
  match a with
  | 0 => s.regs.cmd
  | 1 => s.regs.result
  | 2 => s.regs.width
  | 3 => s.regs.height
  | 4 => s.regs.nch
  | 5 => s.regs.chsel
  | 6 => s.regs.mlen
  | 7 => s.regs.msgLen
  | 8 => s.regs.bitsLen
  | 9 => s.regs.outLen
  | 10 => s.regs.cur
  | _ => 0#32

/-- `HostRead(S:a)`: the content of one cell; 0 beyond the end of the space (R62, R64). -/
def hostRead (s : State) (sp : Space) (a : Nat) : Word :=
  match sp with
  | .reg => hostReadReg s a
  | .pix => if a < s.sizes.pixSize then byteWord (readPix s a) else 0#32
  | .msg => if a < s.sizes.msgMax then byteWord (readMsg s a) else 0#32
  | .out => if a < s.sizes.outMax then byteWord (readOut s a) else 0#32
  | .bits => if a < s.sizes.bitsMax then bitWord (readBit s a) else 0#32
  | .mrkr => if a < s.sizes.mlenMax then bitWord (readMrkr s a) else 0#32

/-- A host write of the word `w` to `CMD`: the word is stored, then the command it encodes runs to
its end, or the word is refused with `ERR_CMD` (R22, R93, R94, R223). -/
def issueCommand (s : State) (w : Word) : Host.Outcome State Fault Refusal :=
  match decode w with
  | .ok i => exec i (setCmd s w)
  | .error _ => .next (raise .errCmd (setCmd s w))

/-- A host write to a register other than `CMD`: `RESULT`, `OUT_LEN`, `CUR` and the reserved numbers
ignore it (R21, R33, R63). Any value is stored; legality is checked when a command uses it (R21). -/
def hostWriteReg (s : State) (a : Nat) (d : Word) : State :=
  match a with
  | 2 => { s with regs := { s.regs with width := d } }
  | 3 => { s with regs := { s.regs with height := d } }
  | 4 => { s with regs := { s.regs with nch := d } }
  | 5 => { s with regs := { s.regs with chsel := d } }
  | 6 => { s with regs := { s.regs with mlen := d } }
  | 7 => { s with regs := { s.regs with msgLen := d } }
  | 8 => { s with regs := { s.regs with bitsLen := d } }
  | _ => s

/-- Every `HostWrite(S:a, d)` but the one to `CMD`: the whole word, `d[7:0]` or `d[0]` is stored;
a write to `OUT` or beyond the end of a space is ignored (R62, R63, R64). -/
def hostStore (s : State) (sp : Space) (a : Nat) (d : Word) : State :=
  match sp with
  | .reg => hostWriteReg s a d
  | .pix => if a < s.sizes.pixSize then writePix s a (lowByte d) else s
  | .msg => if a < s.sizes.msgMax then writeMsg s a (lowByte d) else s
  | .out => s
  | .bits => if a < s.sizes.bitsMax then writeBit s a (lowBit d) else s
  | .mrkr => if a < s.sizes.mlenMax then writeMrkr s a (lowBit d) else s

/-- `HostWrite(S:a, d)` (R62): a write to `REG:0` issues a command, every other one stores. -/
def hostWrite (s : State) (sp : Space) (a : Nat) (d : Word) : Host.Outcome State Fault Refusal :=
  if sp = .reg ∧ a = 0 then issueCommand s d else .next (hostStore s sp a d)

/-- One host event. A read changes no state of the block (R73); the model notes what it returned
(log 2). -/
def runEvent (e : HostEvent) (s : State) : Host.Outcome State Fault Refusal :=
  match e with
  | .read sp a => .next { s with reads := s.reads ++ [hostRead s sp a] }
  | .write sp a d => hostWrite s sp a d
  | .reset => .next (applyReset s)

end Sys2Proof.Machine
end

