-- ==== Sys2Proof/Machine/Step.lean ====
section
/-! DEFINITION. One step: the host's next operation, done whole (spec/20_memory.md R75, R76). -/

namespace Sys2Proof.Machine

/-- The host's first pending operation is taken and done; with none pending the block is idle and
nothing changes (R238, R278, log 1). -/
def step (s : State) : Host.Outcome State Fault Refusal :=
  match s.script with
  | [] => .next s
  | e :: rest => runEvent e { s with script := rest }

/-- Place an instruction where the next step takes one: a host write of its word to `CMD`, put
before the operations already pending (R22, R79, log 5). -/
def State.withFetchWord (s : State) (nbits w : Nat) : State :=
  { s with script := .write .reg 0 (BitVec.ofNat 32 (w % 2 ^ nbits)) :: s.script }

end Sys2Proof.Machine
end

