-- ==== Sys2Proof/Machine/Script.lean ====
section
/-! DEFINITION. The host's side of a run: script lines and pseudo-operations and the host operations
they expand to (spec/30_encoding.md R103, R104), and the ordinal text mapping `ORD`
(spec/40_codec.md R127). -/

namespace Sys2Proof.Machine

/-- The register names of R21. -/
inductive RegName where
  | cmd
  | result
  | width
  | height
  | nch
  | chsel
  | mlen
  | msgLen
  | bitsLen
  | outLen
  | cur
  deriving DecidableEq, Repr

/-- The register numbers of R21. -/
def regNumber : RegName → Nat
  | .cmd => 0
  | .result => 1
  | .width => 2
  | .height => 3
  | .nch => 4
  | .chsel => 5
  | .mlen => 6
  | .msgLen => 7
  | .bitsLen => 8
  | .outLen => 9
  | .cur => 10

/-- A line of a host script: the five lines of R103, the seven pseudo-operations of R104
and one line of the model's own (log 12). -/
inductive ScriptLine where
  /-- `WR <reg>, <value>`. -/
  | wr (reg : RegName) (value : Word)
  /-- `RD <reg>`. -/
  | rd (reg : RegName)
  /-- `ST <space>:<addr>, <value>`. -/
  | st (space : Space) (addr : Nat) (value : Word)
  /-- `LD <space>:<addr>`. -/
  | ld (space : Space) (addr : Nat)
  /-- `CMD <mnemonic>`. -/
  | cmd (command : Instr)
  /-- `FILL <space>:<a>, <n>, <v>`. -/
  | fill (space : Space) (addr n : Nat) (value : Word)
  /-- `BYTES <space>:<a>, b0 b1 ...`. -/
  | bytes (space : Space) (addr : Nat) (values : List Word)
  /-- `TEXT "<s>"` under the ordinal mapping. -/
  | text (chars : List Char)
  /-- The model's own line (log 12): `TEXT` under another mapping of the host, by the code units that
  mapping gives. -/
  | units (codeUnits : List Byte)
  /-- `MARKER <bit string>`. -/
  | marker (pattern : List Bit)
  /-- `GRID <W>, <H>, <N>`. -/
  | grid (w h n : Word)
  /-- `ENCODE`. -/
  | encode
  /-- `DECODE`. -/
  | decode
  deriving DecidableEq, Repr

/-- `<space>` of a line is one of `PIX`, `MSG`, `MRKR`, `BITS`, `OUT` (R103); a text under `ORD` has
no codepoint above 255 (R127). -/
def ScriptLine.wellFormed : ScriptLine → Bool
  | .st sp _ _ => decide (sp ≠ .reg)
  | .ld sp _ => decide (sp ≠ .reg)
  | .fill sp _ _ _ => decide (sp ≠ .reg)
  | .bytes sp _ _ => decide (sp ≠ .reg)
  | .text cs => cs.all (fun c => decide (c.toNat ≤ 255))
  | _ => true

/-- `ORD`: each codepoint in 0 to 255 is its own code unit; a text with another codepoint is refused,
never truncated (R127). -/
def ordinalMap : List Char → Option (List Byte)
  | [] => some []
  | c :: cs =>
    if c.toNat ≤ 255 then (ordinalMap cs).map (fun m => BitVec.ofNat 8 c.toNat :: m) else none

/-- `ORD^-1`: each byte back to the character with that codepoint (R127). -/
def ordinalUnmap (m : List Byte) : List Char := m.map (fun v => Char.ofNat v.toNat)

/-- Writes of the words `ds` to the cells of a space from address `a` on. -/
def writeRun (sp : Space) (a : Nat) : List Word → List HostEvent
  | [] => []
  | d :: ds => .write sp a d :: writeRun sp (a + 1) ds

/-- The host write a `WR` line stands for (R103). -/
def wrEvent (r : RegName) (v : Word) : HostEvent := .write .reg (regNumber r) v

/-- The host operations of a loaded message: its code units and its length (R104 `TEXT`).
DESIGN CHOICE (log 17, unsafe): a length of `2^32` or more, of which the spec says nothing, is written
modulo `2^32`. -/
def loadMessage (m : List Byte) : List HostEvent :=
  writeRun .msg 0 (m.map byteWord) ++ [wrEvent .msgLen (BitVec.ofNat 32 m.length)]

/-- The host operations a line stands for (R103, R104); none where the host must refuse the line.
DESIGN CHOICE (log 17, unsafe): the length of a `MARKER` or `TEXT` line is written modulo `2^32`. -/
def expandLine (l : ScriptLine) : Option (List HostEvent) :=
  if l.wellFormed then
    match l with
    | .wr r v => some [wrEvent r v]
    | .rd r => some [.read .reg (regNumber r)]
    | .st sp a v => some [.write sp a v]
    | .ld sp a => some [.read sp a]
    | .cmd i => some [.write .reg 0 (encode i)]
    | .fill sp a n v => some (writeRun sp a (List.replicate n v))
    | .bytes sp a vs => some (writeRun sp a vs)
    | .text cs => (ordinalMap cs).map loadMessage
    | .units m => some (loadMessage m)
    | .marker p =>
      some (writeRun .mrkr 0 (p.map bitWord) ++ [wrEvent .mlen (BitVec.ofNat 32 p.length)])
    | .grid w h n => some [wrEvent .width w, wrEvent .height h, wrEvent .nch n]
    | .encode => some [.write .reg 0 (Sys2Proof.encode .enc)]
    | .decode => some [.write .reg 0 (Sys2Proof.encode .dec)]
  else none

/-- The encoding of a script: the list of its host operations (R103); none where a line is
refused. -/
def expandScript : List ScriptLine → Option (List HostEvent)
  | [] => some []
  | l :: ls =>
    match expandLine l, expandScript ls with
    | some es, some rest => some (es ++ rest)
    | _, _ => none

end Sys2Proof.Machine
end

