-- ==== Sys2Proof/Safety.lean ====
section
/-! DEFINITION. What counts as a safe run, and the invariant claims assume: what every state a run
reaches looks like. -/

namespace Sys2Proof.Machine

/-- The outcome is a next state: neither a fault nor a refusal. -/
def Completes (o : Host.Outcome State Fault Refusal) : Prop := ∃ t, o = .next t

/-- The invariant: the size parameters obey R11; every memory is in canonical form with its cells
inside its space (R34 to R38); `RESULT` holds one of the six codes (R23); the recovered text lies
inside `OUT` (R32). -/
abbrev State.wf (s : State) : Prop :=
  s.sizes.Legal ∧
    Memory.wf unlistedByte s.sizes.pixSize s.pix ∧
    Memory.wf unlistedByte s.sizes.msgMax s.msg ∧
    Memory.wf unlistedMarkerBit s.sizes.mlenMax s.mrkr ∧
    Memory.wf unlistedBit s.sizes.bitsMax s.bits ∧
    Memory.wf unlistedByte s.sizes.outMax s.out ∧
    s.regs.result.toNat ≤ 5 ∧ s.regs.outLen.toNat ≤ s.sizes.outMax

/-- What each command needs (the second table of R226): all must hold, or it is refused with
`ERR_CFG`. -/
def CommandOK : Instr → State → Prop
  | .t2b, s => MsgOK s
  | .b2t, s => BitsOK s
  | .mrk, s => MarkerOK s ∧ BitsOK s ∧ bitsLenOf s + mlenOf s ≤ s.sizes.bitsMax
  | .cap, s => DimOK s
  | .emb, s => GridOK s ∧ BitsOK s
  | .enc, s =>
    MsgOK s ∧ MarkerOK s ∧ GridOK s ∧ 8 * msgLenOf s + mlenOf s ≤ s.sizes.bitsMax
  | .ext, s => GridOK s ∧ MarkerOK s ∧ widthOf s * heightOf s ≤ s.sizes.bitsMax
  | .dec, s => GridOK s ∧ MarkerOK s ∧ widthOf s * heightOf s ≤ s.sizes.bitsMax

end Sys2Proof.Machine
end

