-- ==== Sys2Proof/Certificates/Slice0/Obligations.lean ====
section
/-! DEFINITION. The statements for the provers. In all of them a word such as `1#32` beside
`result :=` is a code of spec/60_exceptions.md R220, and `s.sizes.Legal` is the constraint
spec/00_scope.md R11 puts on the parameters (an invariant: StepKeepsWellFormedness). A state written
`{ s with … }` says at once what is written and that nothing else is. -/

open Sys2Proof Sys2Proof.Machine

/-! ### Encoding -/

/-- Command words of spec/95_test_vectors.md section 2.10, written out from R91 and R92. -/
def Obligations.KnownCommandWordsDecode : Prop :=
  decode 0b00000000000000000000000000000001#32 = .ok .t2b ∧
  decode 0b00000000000000000000000000000010#32 = .ok .b2t ∧
  decode 0b00000000000000000000000000000011#32 = .ok .mrk ∧
  decode 0b00000000000000000000000000000100#32 = .ok .cap ∧
  decode 0b00000000000000000000000000000101#32 = .ok .emb ∧
  decode 0b00000000000000000000000000000110#32 = .ok .enc ∧
  decode 0b00000000000000000000000000000111#32 = .ok .ext ∧
  decode 0b00000000000000000000000000001000#32 = .ok .dec ∧
  decode 0x00000016#32 = .error .reservedBits ∧
  decode 0x80000006#32 = .error .reservedBits ∧
  decode 0x00000009#32 = .error .reservedOpcode

/-- R92: the map, and that nothing else is a command. -/
def Obligations.CommandMapIsExact : Prop :=
  (encode .t2b = 0x00000001#32 ∧ encode .b2t = 0x00000002#32 ∧ encode .mrk = 0x00000003#32 ∧
    encode .cap = 0x00000004#32 ∧ encode .emb = 0x00000005#32 ∧ encode .enc = 0x00000006#32 ∧
    encode .ext = 0x00000007#32 ∧ encode .dec = 0x00000008#32) ∧
  ∀ w : Word,
    ((∃ i, decode w = .ok i) ↔
      zeroField w = 0#28 ∧ 1 ≤ (opField w).toNat ∧ (opField w).toNat ≤ 8) ∧
    ∀ i, decode w = .ok i ↔ w = encode i

/-- R93 and R223: a reserved word is stored in `CMD` and answered with `ERR_CMD`, nothing else. -/
def Obligations.ReservedWordsEndWithErrCmd : Prop :=
  ∀ (s : State) (w : Word) (rest : List HostEvent),
    (zeroField w ≠ 0#28 ∨ (opField w).toNat = 0 ∨ 9 ≤ (opField w).toNat) →
    step { s with script := .write .reg 0 w :: rest } =
      .next { s with script := rest, regs := { s.regs with cmd := w, result := 4#32 } }

/-! ### The step and the host -/

/-- R22 in the model's terms (log 1): the step stores the word in `CMD` and runs the command the
word decodes to. -/
def Obligations.StepRunsTheDecodedCommand : Prop :=
  ∀ (s : State) (w : Word) (i : Instr) (rest : List HostEvent), decode w = .ok i →
    step { s with script := .write .reg 0 w :: rest } =
      exec i { s with script := rest, regs := { s.regs with cmd := w } }

/-- Log 5: the instruction `withFetchWord` places is the one the next step runs. -/
def Obligations.FetchedWordRunsNext : Prop :=
  ∀ (s : State) (nbits w : Nat) (i : Instr), decodeTableWord nbits w = some i →
    step (s.withFetchWord nbits w) =
      exec i { s with regs := { s.regs with cmd := BitVec.ofNat 32 (w % 2 ^ nbits) } }

/-- What a step does for every host event but a write to `CMD` (log 1, log 2): a read changes no
state of the block (R73), a write stores, a reset resets, and with nothing pending nothing
changes. -/
def Obligations.StepDoesTheHostsNextOperation : Prop :=
  (∀ s : State, s.script = [] → step s = .next s) ∧
  (∀ (s : State) (sp : Space) (a : Nat) (rest : List HostEvent),
    step { s with script := .read sp a :: rest } =
      .next { s with script := rest, reads := s.reads ++ [hostRead s sp a] }) ∧
  (∀ (s : State) (sp : Space) (a : Nat) (d : Word) (rest : List HostEvent),
    (sp ≠ .reg ∨ a ≠ 0) →
    step { s with script := .write sp a d :: rest } =
      .next (hostStore { s with script := rest } sp a d)) ∧
  (∀ (s : State) (rest : List HostEvent),
    step { s with script := .reset :: rest } = .next (applyReset { s with script := rest }))

/-- R61: a host write changes the cell it names and nothing else, in any space. -/
def Obligations.HostWriteChangesOnlyItsCell : Prop :=
  ∀ (s : State) (sp : Space) (a : Nat) (d : Word) (sp' : Space) (a' : Nat),
    (sp', a') ≠ (sp, a) →
    hostRead (hostStore s sp a d) sp' a' = hostRead s sp' a'

/-- R21, R62 and R63: a read returns the cell; read-only cells ignore a write; the others take the
word, its low byte or its low bit. A write to `CMD` is a step of its own (StepRunsTheDecodedCommand).
That a reserved register reads 0 and ignores a write is what R33 and R64 state and, since R64 lets a
model refuse such an access, the model's choice (log 8, DESIGN CHOICE). -/
def Obligations.HostAccessRights : Prop :=
  ∀ (s : State) (a : Nat) (d : Word),
    (hostRead s .reg 0 = s.regs.cmd ∧ hostRead s .reg 1 = s.regs.result ∧
      hostRead s .reg 2 = s.regs.width ∧ hostRead s .reg 3 = s.regs.height ∧
      hostRead s .reg 4 = s.regs.nch ∧ hostRead s .reg 5 = s.regs.chsel ∧
      hostRead s .reg 6 = s.regs.mlen ∧ hostRead s .reg 7 = s.regs.msgLen ∧
      hostRead s .reg 8 = s.regs.bitsLen ∧ hostRead s .reg 9 = s.regs.outLen ∧
      hostRead s .reg 10 = s.regs.cur) ∧
    (a < s.sizes.pixSize → hostRead s .pix a = (readPix s a).setWidth 32) ∧
    (a < s.sizes.msgMax → hostRead s .msg a = (readMsg s a).setWidth 32) ∧
    (a < s.sizes.outMax → hostRead s .out a = (readOut s a).setWidth 32) ∧
    (a < s.sizes.mlenMax → hostRead s .mrkr a = if readMrkr s a then 1#32 else 0#32) ∧
    (a < s.sizes.bitsMax → hostRead s .bits a = if readBit s a then 1#32 else 0#32) ∧
    (11 ≤ a → hostRead s .reg a = 0#32 ∧ hostStore s .reg a d = s) ∧
    (a = 1 ∨ a = 9 ∨ a = 10 → hostStore s .reg a d = s) ∧
    hostStore s .out a d = s ∧
    (2 ≤ a → a ≤ 8 → hostRead (hostStore s .reg a d) .reg a = d) ∧
    (a < s.sizes.pixSize → hostRead (hostStore s .pix a d) .pix a = d &&& 0xFF#32) ∧
    (a < s.sizes.msgMax → hostRead (hostStore s .msg a d) .msg a = d &&& 0xFF#32) ∧
    (a < s.sizes.mlenMax → hostRead (hostStore s .mrkr a d) .mrkr a = d &&& 1#32) ∧
    (a < s.sizes.bitsMax → hostRead (hostStore s .bits a d) .bits a = d &&& 1#32)

/-- R64's host side: beyond the end of a space a write is ignored and a read returns 0. -/
def Obligations.AccessBeyondTheEndReachesNoCell : Prop :=
  ∀ (s : State) (a : Nat) (d : Word),
    (s.sizes.pixSize ≤ a → hostRead s .pix a = 0#32 ∧ hostStore s .pix a d = s) ∧
    (s.sizes.msgMax ≤ a → hostRead s .msg a = 0#32 ∧ hostStore s .msg a d = s) ∧
    (s.sizes.outMax ≤ a → hostRead s .out a = 0#32 ∧ hostStore s .out a d = s) ∧
    (s.sizes.bitsMax ≤ a → hostRead s .bits a = 0#32 ∧ hostStore s .bits a d = s) ∧
    (s.sizes.mlenMax ≤ a → hostRead s .mrkr a = 0#32 ∧ hostStore s .mrkr a d = s)

/-- The table of R42: the registers and `MRKR` after reset, for the state `State.reset` and for the
reset event; the other memories read as free values (log 4). -/
def Obligations.ResetLeavesTheResetValues : Prop :=
  ∀ (s t : State),
    (t = State.reset ∨ step { s with script := .reset :: s.script } = .next t) →
    t.regs = { cmd := 0#32, result := 0#32, width := 0#32, height := 0#32, nch := 3#32,
               chsel := 2#32, mlen := 8#32, msgLen := 0#32, bitsLen := 0#32, outLen := 0#32,
               cur := 0#32 } ∧
    ∀ a, readMrkr t a = false ∧ readPix t a = Config.pixAtReset t.resets a ∧
      readMsg t a = Config.msgAtReset t.resets a ∧ readBit t a = Config.bitsAtReset t.resets a ∧
      readOut t a = Config.outAtReset t.resets a

/-- R261: what each command does right after reset. -/
def Obligations.CommandsRightAfterReset : Prop :=
  (∃ t, exec .t2b State.reset = .next t ∧ t.regs.result = 1#32 ∧ bitsLenOf t = 0) ∧
  (∃ t, exec .b2t State.reset = .next t ∧ t.regs.result = 1#32 ∧ outLenOf t = 0) ∧
  (∃ t, exec .mrk State.reset = .next t ∧ t.regs.result = 1#32 ∧
    bitsSeq t = [false, false, false, false, false, false, false, false]) ∧
  (∃ t, exec .cap State.reset = .next t ∧ t.regs.result = 1#32) ∧
  (∃ t, exec .emb State.reset = .next t ∧ t.regs.result = 1#32 ∧ curOf t = 0) ∧
  (∃ t, exec .enc State.reset = .next t ∧ t.regs.result = 2#32 ∧ bitsLenOf t = 8) ∧
  (∃ t, exec .ext State.reset = .next t ∧ t.regs.result = 3#32 ∧ bitsLenOf t = 0 ∧ curOf t = 0) ∧
  (∃ t, exec .dec State.reset = .next t ∧ t.regs.result = 3#32 ∧ bitsLenOf t = 0 ∧ curOf t = 0)

/-! ### Invariants -/

/-- The invariant holds right after reset. -/
def Obligations.ResetIsWellFormed : Prop := State.wf State.reset

/-- Every step keeps the invariant: legal sizes, canonical memories with every cell inside its
space, `RESULT` one of the six codes, the recovered text inside `OUT`. -/
def Obligations.StepKeepsWellFormedness : Prop :=
  ∀ s t : State, s.wf → step s = .next t → t.wf

/-- R205: every command ends, and every step does; no fault, no refusal. -/
def Obligations.EveryCommandEnds : Prop :=
  (∀ (i : Instr) (s : State), Completes (exec i s)) ∧ ∀ s : State, Completes (step s)

/-! ### The codec -/

/-- R122: `textToBits`, element by element. -/
def Obligations.TextToBitsIsMsbFirst : Prop :=
  textToBits [] = [] ∧
  ∀ m : List Byte, (textToBits m).length = 8 * m.length ∧
    ∀ (i : Nat) (v : Byte), m[i]? = some v → ∀ k, k < 8 →
      (textToBits m)[8 * i + k]? = some (v.getLsbD (7 - k)) ∧
      (v.getLsbD (7 - k)).toNat = v.toNat / 2 ^ (7 - k) % 2

/-- R123: `bitsToText`, code unit by code unit; a dangling group is dropped. -/
def Obligations.BitsToTextDropsTheDanglingGroup : Prop :=
  ∀ s : List Bit, (bitsToText s).length = s.length / 8 ∧
    ∀ j, j < s.length / 8 → ∃ v : Byte, (bitsToText s)[j]? = some v ∧
      v.toNat = ((List.range 8).map
        (fun k => (s.getD (8 * j + k) false).toNat * 2 ^ (7 - k))).sum

/-- R126: the four laws of the codec. -/
def Obligations.CodecLaws : Prop :=
  (∀ m : List Byte, bitsToText (textToBits m) = m ∧ (textToBits m).length = 8 * m.length) ∧
  (∀ s : List Bit, textToBits (bitsToText s) = s.take (8 * (s.length / 8))) ∧
  (∀ a b : List Byte, textToBits (a ++ b) = textToBits a ++ textToBits b) ∧
  (∀ s t : List Bit, s.length % 8 = 0 → bitsToText (s ++ t) = bitsToText s ++ bitsToText t)

/-- R124: `T2B`, both outcomes, with everything it leaves unchanged. -/
def Obligations.T2bWritesTheMessageBits : Prop :=
  encode .t2b = 0x00000001#32 ∧
  ∀ s : State, s.sizes.Legal →
    (MsgOK s → ∃ t, exec .t2b s = .next t ∧
      t = { s with bits := t.bits,
                   regs := { s.regs with bitsLen := BitVec.ofNat 32 (8 * msgLenOf s),
                                         result := 1#32 } } ∧
      bitsLenOf t = 8 * msgLenOf s ∧ bitsSeq t = textToBits (msgSeq s) ∧
      ∀ a, 8 * msgLenOf s ≤ a → readBit t a = readBit s a) ∧
    (¬ MsgOK s → exec .t2b s = .next { s with regs := { s.regs with result := 5#32 } })

/-- R125: `B2T`, both outcomes, with everything it leaves unchanged. -/
def Obligations.B2tWritesTheText : Prop :=
  encode .b2t = 0x00000002#32 ∧
  ∀ s : State, s.sizes.Legal →
    (BitsOK s → ∃ t, exec .b2t s = .next t ∧
      t = { s with out := t.out,
                   regs := { s.regs with outLen := BitVec.ofNat 32 (bitsLenOf s / 8),
                                         result := 1#32 } } ∧
      outLenOf t = bitsLenOf s / 8 ∧ outLenOf t ≤ s.sizes.outMax ∧
      outSeq t = bitsToText (bitsSeq s) ∧
      ∀ a, bitsLenOf s / 8 ≤ a → readOut t a = readOut s a) ∧
    (¬ BitsOK s → exec .b2t s = .next { s with regs := { s.regs with result := 5#32 } })

/-! ### The marker -/

/-- R144 and R145: the suffix test, bit by bit. -/
def Obligations.MarkerMatchIsTheSuffixTest : Prop :=
  ∀ mk s : List Bit,
    (markerMatch mk s = true ↔
      mk.length ≤ s.length ∧
        ∀ j, j < mk.length → s[s.length - mk.length + j]? = mk[j]?) ∧
    (s.length < mk.length → markerMatch mk s = false)

/-- R148: `FirstMatch` is the least length whose prefix ends with the marker, or none. -/
def Obligations.FirstMatchIsLeast : Prop :=
  ∀ mk s : List Bit,
    (∀ f, firstMatch mk s = some f ↔
      (mk.length ≤ f ∧ f ≤ s.length ∧ markerMatch mk (s.take f) = true ∧
        ∀ n, mk.length ≤ n → n < f → markerMatch mk (s.take n) = false)) ∧
    (firstMatch mk s = none ↔
      ∀ n, mk.length ≤ n → n ≤ s.length → markerMatch mk (s.take n) = false)

/-- R146: the rolling detector computes the suffix test; its window holds the last `min(c, M)`
bits. -/
def Obligations.RollingDetectorIsMarkerMatch : Prop :=
  ∀ mk s : List Bit, mk ≠ [] →
    (detectorRun mk.length s).2 = s.length ∧
    (detectorRun mk.length s).1 = s.drop (s.length - min s.length mk.length) ∧
    detectorReports mk (detectorRun mk.length s) = markerMatch mk s

/-- R147: `MRK`, both outcomes, with everything it leaves unchanged. -/
def Obligations.MrkAppendsTheMarker : Prop :=
  encode .mrk = 0x00000003#32 ∧
  ∀ s : State, s.sizes.Legal →
    (MarkerOK s ∧ BitsOK s ∧ bitsLenOf s + mlenOf s ≤ s.sizes.bitsMax →
      ∃ t, exec .mrk s = .next t ∧
        t = { s with bits := t.bits,
                     regs := { s.regs with
                       bitsLen := BitVec.ofNat 32 (bitsLenOf s + mlenOf s), result := 1#32 } } ∧
        bitsLenOf t = bitsLenOf s + mlenOf s ∧ bitsSeq t = bitsSeq s ++ markerSeq s ∧
        ∀ a, a < bitsLenOf s ∨ bitsLenOf s + mlenOf s ≤ a → readBit t a = readBit s a) ∧
    (¬ (MarkerOK s ∧ BitsOK s ∧ bitsLenOf s + mlenOf s ≤ s.sizes.bitsMax) →
      exec .mrk s = .next { s with regs := { s.regs with result := 5#32 } })

/-- R143: a marker of length 0, or longer than `MLEN_MAX`, is refused by every command that uses
the marker. -/
def Obligations.EmptyOrOverlongMarkerIsRefused : Prop :=
  ∀ (s : State) (i : Instr), (mlenOf s = 0 ∨ s.sizes.mlenMax < mlenOf s) →
    (i = .mrk ∨ i = .enc ∨ i = .ext ∨ i = .dec) →
    exec i s = .next { s with regs := { s.regs with result := 5#32 } }

/-- R150: with the 8-bit zero marker, `NoEarlyMarker(m)` is (a) no run of 8 zero bits anywhere in
the message bits and (b) an odd last byte. -/
def Obligations.ZeroMarkerEarlyMatchCharacterised : Prop :=
  ∀ m : List Byte,
    NoEarlyMarker (List.replicate 8 false) m ↔
      (∀ i, i + 8 ≤ (textToBits m).length →
        ((textToBits m).drop i).take 8 ≠ List.replicate 8 false) ∧
      ∀ v, m.getLast? = some v → v.getLsbD 0 = true

/-! ### The capacity validator -/

/-- R162: `CAP`, its three outcomes; nothing but `RESULT` changes. -/
def Obligations.CapComparesWithTheCapacity : Prop :=
  encode .cap = 0x00000004#32 ∧
  ∀ s : State,
    (DimOK s → bitsLenOf s ≤ widthOf s * heightOf s →
      exec .cap s = .next { s with regs := { s.regs with result := 1#32 } }) ∧
    (DimOK s → widthOf s * heightOf s < bitsLenOf s →
      exec .cap s = .next { s with regs := { s.regs with result := 2#32 } }) ∧
    (¬ DimOK s → exec .cap s = .next { s with regs := { s.regs with result := 5#32 } })

/-- R164 and R165: a payload that does not fit gives `CAPACITY_ERROR` with `PIX` unchanged (always so
on a grid without pixels), one that fits gives `OK`. -/
def Obligations.EncSignalsCapacityExactly : Prop :=
  ∀ s : State, s.sizes.Legal → EncOK s →
    ∃ t, exec .enc s = .next t ∧
      (widthOf s * heightOf s < 8 * msgLenOf s + mlenOf s → t.regs.result = 2#32 ∧ t.pix = s.pix) ∧
      (8 * msgLenOf s + mlenOf s ≤ widthOf s * heightOf s → t.regs.result = 1#32) ∧
      (widthOf s * heightOf s = 0 → t.regs.result = 2#32)

/-- R12: with legal sizes no count the commands compute leaves its register's range. -/
def Obligations.CountsNeverWrap : Prop :=
  ∀ s : State, s.sizes.Legal →
    (DimOK s → widthOf s * heightOf s ≤ (2 ^ s.sizes.dimW - 1) ^ 2 ∧
      widthOf s * heightOf s < 2 ^ 32) ∧
    (MsgOK s → MarkerOK s → 8 * msgLenOf s + mlenOf s ≤ s.sizes.bitsMax ∧
      8 * msgLenOf s + mlenOf s < 2 ^ 32) ∧
    (BitsOK s → bitsLenOf s / 8 ≤ s.sizes.outMax)

/-! ### The encoder -/

/-- R172: `EmbedBit`, as bits and as a number. -/
def Obligations.EmbedBitReplacesTheLsb : Prop :=
  ∀ (v : Byte) (b : Bit),
    embedBit v b = (v &&& 0xFE#8) ||| (if b then 1#8 else 0#8) ∧
    (∀ k, 1 ≤ k → k ≤ 7 → (embedBit v b).getLsbD k = v.getLsbD k) ∧
    (embedBit v b).getLsbD 0 = b ∧
    (embedBit v b).toNat = 2 * (v.toNat / 2) + b.toNat ∧
    (v.getLsbD 0 = b → embedBit v b = v) ∧
    (v.getLsbD 0 = false → b = true → (embedBit v b).toNat = v.toNat + 1) ∧
    (v.getLsbD 0 = true → b = false → (embedBit v b).toNat + 1 = v.toNat)

/-- R173: one step of the encoder's scan is one read-modify-write and the cursor. -/
def Obligations.EmbedStepWritesOneCell : Prop :=
  ∀ (s : State) (p : Nat),
    embedStep s p = { s with pix := (embedStep s p).pix,
                             regs := { s.regs with cur := BitVec.ofNat 32 (p + 1) } } ∧
    readPix (embedStep s p) (p * nchOf s + chselOf s) =
      embedBit (readPix s (p * nchOf s + chselOf s)) (readBit s p) ∧
    ∀ a, a ≠ p * nchOf s + chselOf s → readPix (embedStep s p) a = readPix s a

/-- R174: `EMB`, its three outcomes, with everything it leaves unchanged. -/
def Obligations.EmbEmbedsTheBitSequence : Prop :=
  encode .emb = 0x00000005#32 ∧
  ∀ s : State,
    (GridOK s → BitsOK s → bitsLenOf s ≤ widthOf s * heightOf s →
      ∃ t, exec .emb s = .next t ∧
        t = { s with pix := t.pix,
                     regs := { s.regs with cur := s.regs.bitsLen, result := 1#32 } } ∧
        (∀ p, p < bitsLenOf s →
          readPix t (p * nchOf s + chselOf s) =
            embedBit (readPix s (p * nchOf s + chselOf s)) (readBit s p)) ∧
        ∀ a, (∀ p, p < bitsLenOf s → a ≠ p * nchOf s + chselOf s) →
          readPix t a = readPix s a) ∧
    (GridOK s → BitsOK s → widthOf s * heightOf s < bitsLenOf s →
      exec .emb s = .next { s with regs := { s.regs with cur := 0#32, result := 2#32 } }) ∧
    (¬ (GridOK s ∧ BitsOK s) →
      exec .emb s = .next { s with regs := { s.regs with result := 5#32 } })

/-- R176: `ENC`, its three outcomes, with everything it leaves unchanged. -/
def Obligations.EncEmbedsThePayload : Prop :=
  encode .enc = 0x00000006#32 ∧
  ∀ s : State, s.sizes.Legal →
    (EncOK s → 8 * msgLenOf s + mlenOf s ≤ widthOf s * heightOf s →
      ∃ t, exec .enc s = .next t ∧
        t = { s with bits := t.bits, pix := t.pix,
                     regs := { s.regs with
                       bitsLen := BitVec.ofNat 32 (8 * msgLenOf s + mlenOf s),
                       cur := BitVec.ofNat 32 (8 * msgLenOf s + mlenOf s), result := 1#32 } } ∧
        bitsLenOf t = 8 * msgLenOf s + mlenOf s ∧ curOf t = 8 * msgLenOf s + mlenOf s ∧
        bitsSeq t = textToBits (msgSeq s) ++ markerSeq s ∧
        (∀ a, 8 * msgLenOf s + mlenOf s ≤ a → readBit t a = readBit s a) ∧
        (∀ p b, (textToBits (msgSeq s) ++ markerSeq s)[p]? = some b →
          readPix t (p * nchOf s + chselOf s) =
            embedBit (readPix s (p * nchOf s + chselOf s)) b) ∧
        ∀ a, (∀ p, p < 8 * msgLenOf s + mlenOf s → a ≠ p * nchOf s + chselOf s) →
          readPix t a = readPix s a) ∧
    (EncOK s → widthOf s * heightOf s < 8 * msgLenOf s + mlenOf s →
      ∃ t, exec .enc s = .next t ∧
        t = { s with bits := t.bits,
                     regs := { s.regs with
                       bitsLen := BitVec.ofNat 32 (8 * msgLenOf s + mlenOf s), cur := 0#32,
                       result := 2#32 } } ∧
        bitsLenOf t = 8 * msgLenOf s + mlenOf s ∧
        bitsSeq t = textToBits (msgSeq s) ++ markerSeq s ∧
        ∀ a, 8 * msgLenOf s + mlenOf s ≤ a → readBit t a = readBit s a) ∧
    (¬ EncOK s → exec .enc s = .next { s with regs := { s.regs with result := 5#32 } })

/-- R178: after an encoding with `OK`, a cell that carries no payload bit is unchanged, and one that
carries payload bit `p` differs in bit 0 at most, by at most 1. -/
def Obligations.EncodersMutateOnlyTheLsb : Prop :=
  ∀ (i : Instr) (s t : State), (i = .emb ∨ i = .enc) → s.sizes.Legal → exec i s = .next t →
    t.regs.result = 1#32 →
    (∀ a, (∀ p, p < bitsLenOf t → a ≠ p * nchOf s + chselOf s) → readPix t a = readPix s a) ∧
    ∀ p, p < bitsLenOf t →
      (∀ k, 1 ≤ k → (readPix t (p * nchOf s + chselOf s)).getLsbD k =
        (readPix s (p * nchOf s + chselOf s)).getLsbD k) ∧
      (bitsSeq t)[p]? = some ((readPix t (p * nchOf s + chselOf s)).getLsbD 0) ∧
      (readPix t (p * nchOf s + chselOf s)).toNat ≤
        (readPix s (p * nchOf s + chselOf s)).toNat + 1 ∧
      (readPix s (p * nchOf s + chselOf s)).toNat ≤
        (readPix t (p * nchOf s + chselOf s)).toNat + 1

/-- R180: after a successful `ENC` the LSBs in scan order are the payload, and the LSBs after it are
the host's. -/
def Obligations.EncLeavesThePayloadInTheLsbs : Prop :=
  ∀ s : State, s.sizes.Legal → EncOK s →
    8 * msgLenOf s + mlenOf s ≤ widthOf s * heightOf s →
    ∃ t, exec .enc s = .next t ∧ t.regs.result = 1#32 ∧
      (gridLsbs t).take (8 * msgLenOf s + mlenOf s) = textToBits (msgSeq s) ++ markerSeq s ∧
      (gridLsbs t).drop (8 * msgLenOf s + mlenOf s) =
        (gridLsbs s).drop (8 * msgLenOf s + mlenOf s)

/-! ### The decoder -/

/-- R192: one step of the decoder's scan: one read, one append, the cursor, and the test on the bits
so far. -/
def Obligations.ExtractStepAppendsOneBit : Prop :=
  ∀ (s : State) (p : Nat),
    extractStep s p = { s with bits := (extractStep s p).bits,
                               regs := { s.regs with cur := BitVec.ofNat 32 (p + 1) } } ∧
    readBit (extractStep s p) p = (readPix s (p * nchOf s + chselOf s)).getLsbD 0 ∧
    (∀ a, a ≠ p → readBit (extractStep s p) a = readBit s a) ∧
    readBits (extractStep s p) 0 (p + 1) =
      readBits s 0 p ++ [(readPix s (p * nchOf s + chselOf s)).getLsbD 0] ∧
    matchedAt (extractStep s p) (p + 1) =
      markerMatch (markerSeq s) (readBits (extractStep s p) 0 (p + 1))

/-- R193: `EXT`, its three outcomes, with everything it leaves unchanged. -/
def Obligations.ExtExtractsUpToTheFirstMatch : Prop :=
  encode .ext = 0x00000007#32 ∧
  ∀ (s : State) (S : List Bit), s.sizes.Legal →
    S = (List.range (widthOf s * heightOf s)).map
      (fun p => (readPix s (p * nchOf s + chselOf s)).getLsbD 0) →
    (ScanOK s → ∀ f, firstMatch (markerSeq s) S = some f →
      ∃ t, exec .ext s = .next t ∧
        t = { s with bits := t.bits,
                     regs := { s.regs with bitsLen := BitVec.ofNat 32 (f - mlenOf s),
                                           cur := BitVec.ofNat 32 f, result := 1#32 } } ∧
        bitsLenOf t = f - mlenOf s ∧ curOf t = f ∧ readBits t 0 f = S.take f ∧
        bitsSeq t = S.take (f - mlenOf s) ∧ ∀ a, f ≤ a → readBit t a = readBit s a) ∧
    (ScanOK s → firstMatch (markerSeq s) S = none →
      ∃ t, exec .ext s = .next t ∧
        t = { s with bits := t.bits,
                     regs := { s.regs with
                       bitsLen := BitVec.ofNat 32 (widthOf s * heightOf s),
                       cur := BitVec.ofNat 32 (widthOf s * heightOf s), result := 3#32 } } ∧
        bitsLenOf t = widthOf s * heightOf s ∧ curOf t = widthOf s * heightOf s ∧
        bitsSeq t = S ∧ ∀ a, widthOf s * heightOf s ≤ a → readBit t a = readBit s a) ∧
    (¬ ScanOK s → exec .ext s = .next { s with regs := { s.regs with result := 5#32 } })

/-- R200: `DEC`, its three outcomes, with everything it leaves unchanged. -/
def Obligations.DecRecoversTheText : Prop :=
  encode .dec = 0x00000008#32 ∧
  ∀ (s : State) (S : List Bit), s.sizes.Legal →
    S = (List.range (widthOf s * heightOf s)).map
      (fun p => (readPix s (p * nchOf s + chselOf s)).getLsbD 0) →
    (ScanOK s → ∀ f, firstMatch (markerSeq s) S = some f →
      ∃ t, exec .dec s = .next t ∧
        t = { s with bits := t.bits, out := t.out,
                     regs := { s.regs with bitsLen := BitVec.ofNat 32 (f - mlenOf s),
                                           cur := BitVec.ofNat 32 f,
                                           outLen := BitVec.ofNat 32 ((f - mlenOf s) / 8),
                                           result := 1#32 } } ∧
        bitsLenOf t = f - mlenOf s ∧ curOf t = f ∧ outLenOf t = (f - mlenOf s) / 8 ∧
        readBits t 0 f = S.take f ∧ bitsSeq t = S.take (f - mlenOf s) ∧
        (∀ a, f ≤ a → readBit t a = readBit s a) ∧
        outSeq t = bitsToText (S.take (f - mlenOf s)) ∧
        ∀ a, (f - mlenOf s) / 8 ≤ a → readOut t a = readOut s a) ∧
    (ScanOK s → firstMatch (markerSeq s) S = none →
      ∃ t, exec .dec s = .next t ∧
        t = { s with bits := t.bits,
                     regs := { s.regs with
                       bitsLen := BitVec.ofNat 32 (widthOf s * heightOf s),
                       cur := BitVec.ofNat 32 (widthOf s * heightOf s), outLen := 0#32,
                       result := 3#32 } } ∧
        bitsLenOf t = widthOf s * heightOf s ∧ curOf t = widthOf s * heightOf s ∧
        bitsSeq t = S ∧ ∀ a, widthOf s * heightOf s ≤ a → readBit t a = readBit s a) ∧
    (¬ ScanOK s → exec .dec s = .next { s with regs := { s.regs with result := 5#32 } })

/-- R197: on an empty grid `EXT` and `DEC` give `NOT_FOUND` and touch no memory. -/
def Obligations.EmptyGridIsNotFound : Prop :=
  ∀ s : State, ScanOK s → widthOf s * heightOf s = 0 →
    exec .ext s = .next { s with regs := { s.regs with bitsLen := 0#32, cur := 0#32,
                                                       result := 3#32 } } ∧
    exec .dec s = .next { s with regs := { s.regs with bitsLen := 0#32, cur := 0#32,
                                                       outLen := 0#32, result := 3#32 } }

/-- R198: a grid smaller than the marker is `NOT_FOUND`; on a grid exactly as large the only possible
match leaves the empty remainder. -/
def Obligations.GridNoLargerThanTheMarker : Prop :=
  ∀ s : State, s.sizes.Legal → ScanOK s →
    (widthOf s * heightOf s < mlenOf s →
      ∃ t, exec .ext s = .next t ∧ t.regs.result = 3#32 ∧ bitsLenOf t = widthOf s * heightOf s ∧
        curOf t = widthOf s * heightOf s ∧ bitsSeq t = gridLsbs s) ∧
    (widthOf s * heightOf s = mlenOf s →
      ∃ t, exec .ext s = .next t ∧
        (gridLsbs s = markerSeq s → t.regs.result = 1#32 ∧ bitsLenOf t = 0) ∧
        (gridLsbs s ≠ markerSeq s → t.regs.result = 3#32))

/-- R199: with the 8-bit zero marker, a grid whose first 8 designated values are even decodes to the
empty text, and one whose values are all odd to `NOT_FOUND`, whoever made it. -/
def Obligations.UntouchedGridsCanMatch : Prop :=
  ∀ s : State, s.sizes.Legal → ScanOK s → markerSeq s = List.replicate 8 false →
    (8 ≤ widthOf s * heightOf s →
      (∀ p, p < 8 → (readPix s (p * nchOf s + chselOf s)).toNat % 2 = 0) →
      ∃ t, exec .dec s = .next t ∧ t.regs.result = 1#32 ∧ bitsLenOf t = 0 ∧ curOf t = 8 ∧
        outSeq t = []) ∧
    ((∀ p, p < widthOf s * heightOf s → (readPix s (p * nchOf s + chselOf s)).toNat % 2 = 1) →
      ∃ t, exec .dec s = .next t ∧ t.regs.result = 3#32)

/-- R191 and R194: the decoder's whole outcome depends on `PIX` only through bit 0 of the designated
channel of the pixels it visited; later pixels and every other bit have no influence. -/
def Obligations.DecoderReadsOnlyVisitedLsbs : Prop :=
  ∀ (i : Instr) (s t : State) (pix' : List Host.Cell), (i = .ext ∨ i = .dec) →
    s.sizes.Legal → exec i s = .next t → t.regs.result ≠ 5#32 →
    (∀ p, p < curOf t →
      (readPix { s with pix := pix' } (p * nchOf s + chselOf s)).getLsbD 0 =
        (readPix s (p * nchOf s + chselOf s)).getLsbD 0) →
    (t.regs.result = 3#32 ∨ t.regs.result = 1#32) ∧
    exec i { s with pix := pix' } = .next { t with pix := pix' }

/-- R204: the dimensions enter the decoder's scan through their product only: other legal dimensions
whose product still reaches the first match, or, where there is no match, is the same, give the same
outcome. -/
def Obligations.DimensionsEnterThroughTheirProduct : Prop :=
  ∀ (i : Instr) (s t : State) (w h : Word), (i = .ext ∨ i = .dec) → s.sizes.Legal → ScanOK s →
    ScanOK { s with regs := { s.regs with width := w, height := h } } →
    exec i s = .next t →
    (t.regs.result = 1#32 ∧ curOf t ≤ w.toNat * h.toNat) ∨
      (t.regs.result = 3#32 ∧ w.toNat * h.toNat = widthOf s * heightOf s) →
    exec i { s with regs := { s.regs with width := w, height := h } } =
      .next { t with regs := { t.regs with width := w, height := h } }

/-! ### Encoding and decoding together -/

/-- R201: the round trip, under `NoEarlyMarker` (spec/90_conflicts.md C1). -/
def Obligations.RoundTrip : Prop :=
  ∀ s : State, s.sizes.Legal → EncOK s → ScanOK s →
    8 * msgLenOf s + mlenOf s ≤ widthOf s * heightOf s →
    NoEarlyMarker (markerSeq s) (msgSeq s) →
    ∃ t u, exec .enc s = .next t ∧ t.regs.result = 1#32 ∧
      exec .dec t = .next u ∧ u.regs.result = 1#32 ∧
      outSeq u = msgSeq s ∧ outLenOf u = msgLenOf s ∧ bitsLenOf u = 8 * msgLenOf s ∧
      curOf u = 8 * msgLenOf s + mlenOf s

/-- R202: with an early marker the encoder still embeds the whole payload (it is in `BITS` and in the
LSBs), and the decoder recovers, with `OK`, a proper prefix of the message. -/
def Obligations.EarlyMarkerTruncates : Prop :=
  ∀ (s : State) (f : Nat), s.sizes.Legal → EncOK s → ScanOK s →
    8 * msgLenOf s + mlenOf s ≤ widthOf s * heightOf s →
    firstMatch (markerSeq s) (payload (markerSeq s) (msgSeq s)) = some f →
    f < 8 * msgLenOf s + mlenOf s →
    ∃ t u, exec .enc s = .next t ∧ t.regs.result = 1#32 ∧
      bitsSeq t = payload (markerSeq s) (msgSeq s) ∧
      (gridLsbs t).take (8 * msgLenOf s + mlenOf s) = payload (markerSeq s) (msgSeq s) ∧
      exec .dec t = .next u ∧ u.regs.result = 1#32 ∧ curOf u = f ∧ bitsLenOf u = f - mlenOf s ∧
      outSeq u = bitsToText ((payload (markerSeq s) (msgSeq s)).take (f - mlenOf s)) ∧
      outSeq u <+: msgSeq s ∧ outLenOf u < msgLenOf s

/-- R203: the loss with the 8-bit zero marker: trailing zero bits cost the last code unit, a zero
byte cuts the text before it. -/
def Obligations.ZeroMarkerLoss : Prop :=
  (∀ (m : List Byte) (v : Byte) (t : Nat),
    (∀ i, i + 8 ≤ (textToBits m).length →
      ((textToBits m).drop i).take 8 ≠ List.replicate 8 false) →
    m.getLast? = some v → 1 ≤ t → t ≤ 7 → v.getLsbD t = true →
    (∀ k, k < t → v.getLsbD k = false) →
    firstMatch (List.replicate 8 false) (payload (List.replicate 8 false) m) =
      some (8 * m.length + 8 - t) ∧
    bitsToText ((payload (List.replicate 8 false) m).take (8 * m.length - t)) = m.dropLast) ∧
  (∀ (m : List Byte) (i : Nat), m[i]? = some 0#8 →
    (∀ j, j + 8 ≤ 8 * i → ((textToBits m).drop j).take 8 ≠ List.replicate 8 false) →
    (i = 0 ∨ ∃ v, m[i - 1]? = some v ∧ v.getLsbD 0 = true) →
    firstMatch (List.replicate 8 false) (payload (List.replicate 8 false) m) =
      some (8 * i + 8) ∧
    bitsToText ((payload (List.replicate 8 false) m).take (8 * i)) = m.take i)

/-- R265: `T2B`; `MRK`; `EMB` leave what `ENC` leaves. -/
def Obligations.StagesComposeToEnc : Prop :=
  ∀ s : State, s.sizes.Legal → EncOK s →
    ∃ t1 t2 t3, exec .t2b s = .next t1 ∧ exec .mrk t1 = .next t2 ∧ exec .emb t2 = .next t3 ∧
      exec .enc s = .next t3

/-- R265: `EXT` with `OK`, then `B2T`, leave what `DEC` leaves; after `NOT_FOUND`, `DEC` differs from
`EXT` in `OUT_LEN` only. -/
def Obligations.ExtThenB2tIsDec : Prop :=
  ∀ s t : State, s.sizes.Legal → ScanOK s → exec .ext s = .next t →
    (t.regs.result = 1#32 ∧ exec .dec s = exec .b2t t) ∨
    (t.regs.result = 3#32 ∧
      exec .dec s = .next { t with regs := { t.regs with outLen := 0#32 } })

/-- R73: all commands but `MRK` give the same final state when run twice in a row. -/
def Obligations.RunningTwiceGivesTheSameState : Prop :=
  ∀ (i : Instr) (s t : State), s.wf → i ≠ .mrk → exec i s = .next t → exec i t = .next t

/-! ### Rules over all commands -/

/-- R71: what no command but the listed ones writes; what no command writes at all. -/
def Obligations.CommandsWriteOnlyWhatTheTableLists : Prop :=
  ∀ (i : Instr) (s t : State), exec i s = .next t →
    t.msg = s.msg ∧ t.mrkr = s.mrkr ∧ t.sizes = s.sizes ∧ t.resets = s.resets ∧
    t.script = s.script ∧ t.reads = s.reads ∧
    t.regs.cmd = s.regs.cmd ∧ t.regs.width = s.regs.width ∧ t.regs.height = s.regs.height ∧
    t.regs.nch = s.regs.nch ∧ t.regs.chsel = s.regs.chsel ∧ t.regs.mlen = s.regs.mlen ∧
    t.regs.msgLen = s.regs.msgLen ∧
    (i ≠ .emb → i ≠ .enc → t.pix = s.pix) ∧
    (i ≠ .b2t → i ≠ .dec → t.out = s.out ∧ t.regs.outLen = s.regs.outLen) ∧
    (i = .b2t ∨ i = .cap ∨ i = .emb → t.bits = s.bits ∧ t.regs.bitsLen = s.regs.bitsLen) ∧
    (i = .t2b ∨ i = .b2t ∨ i = .mrk ∨ i = .cap → t.regs.cur = s.regs.cur)

/-- R224: a command whose configuration is illegal (the table of R226) ends with `ERR_CFG` and
changes nothing else; one whose configuration is legal does not end so. -/
def Obligations.IllegalConfigurationIsRefused : Prop :=
  ∀ (i : Instr) (s : State),
    (¬ CommandOK i s → exec i s = .next { s with regs := { s.regs with result := 5#32 } }) ∧
    (CommandOK i s → ∃ t, exec i s = .next t ∧ t.regs.result ≠ 5#32)

/-- R239: which kinds each command can end with. -/
def Obligations.ResultKindsOfEachCommand : Prop :=
  ∀ (i : Instr) (s t : State), exec i s = .next t →
    t.regs.result = 1#32 ∨ t.regs.result = 5#32 ∨
    (t.regs.result = 2#32 ∧ (i = .cap ∨ i = .emb ∨ i = .enc)) ∨
    (t.regs.result = 3#32 ∧ (i = .ext ∨ i = .dec))

/-- R229: failures are precise, for every word the host can write to `CMD`. -/
def Obligations.FailuresArePrecise : Prop :=
  ∀ (s t : State) (w : Word), issueCommand s w = .next t →
    (t.regs.result = 4#32 ∨ t.regs.result = 5#32 →
      t = { s with regs := { s.regs with cmd := w, result := t.regs.result } }) ∧
    (t.regs.result = 2#32 ∨ t.regs.result = 3#32 → t.pix = s.pix) ∧
    (t.regs.result ≠ 1#32 → t.pix = s.pix)

/-- R23 and R230: `RESULT` is not sticky: what a command does and the code it leaves do not depend
on the code an earlier command left. -/
def Obligations.ResultIsNotSticky : Prop :=
  ∀ (i : Instr) (s : State) (r : Word),
    exec i { s with regs := { s.regs with result := r } } = exec i s

/-- R31: no scan counts past the grid, and where each outcome leaves the cursor. -/
def Obligations.CursorAfterAScan : Prop :=
  ∀ (i : Instr) (s t : State), (i = .emb ∨ i = .enc ∨ i = .ext ∨ i = .dec) → s.sizes.Legal →
    exec i s = .next t → t.regs.result ≠ 5#32 →
    curOf t ≤ widthOf s * heightOf s ∧
    ((i = .emb ∨ i = .enc) → t.regs.result = 1#32 → curOf t = bitsLenOf t) ∧
    (t.regs.result = 2#32 → curOf t = 0) ∧
    (t.regs.result = 3#32 → curOf t = widthOf s * heightOf s) ∧
    ((i = .ext ∨ i = .dec) → t.regs.result = 1#32 → curOf t = bitsLenOf t + mlenOf s)

/-- R65 and R66: the layout puts every channel of every pixel of a legal grid inside `PIX`, each in a
cell of its own, and coordinates can be read back from the index. -/
def Obligations.GridCellsAreDistinctAndInsidePix : Prop :=
  ∀ s : State, GridOK s →
    chselOf s < nchOf s ∧
    ∀ x y c, x < widthOf s → y < heightOf s → c < nchOf s →
      pixAddr (nchOf s) (pixelIndex (widthOf s) x y) c < s.sizes.pixSize ∧
      pixelIndex (widthOf s) x y < widthOf s * heightOf s ∧
      pixelIndex (widthOf s) x y % widthOf s = x ∧ pixelIndex (widthOf s) x y / widthOf s = y ∧
      ∀ x' y' c', x' < widthOf s → y' < heightOf s → c' < nchOf s →
        pixAddr (nchOf s) (pixelIndex (widthOf s) x y) c =
          pixAddr (nchOf s) (pixelIndex (widthOf s) x' y') c' → x = x' ∧ y = y' ∧ c = c'

/-! ### The host's script and text mapping -/

/-- R127: `ORD` maps exactly the texts whose codepoints are at most 255, one code unit each, and
`ORD^-1` gives the text back. -/
def Obligations.OrdinalMappingIsExactAndReversible : Prop :=
  ∀ cs : List Char,
    ((∀ c ∈ cs, c.toNat ≤ 255) → ∃ m, ordinalMap cs = some m ∧ m.length = cs.length ∧
      m.map BitVec.toNat = cs.map Char.toNat ∧ ordinalUnmap m = cs) ∧
    ((∃ c ∈ cs, 255 < c.toNat) → ordinalMap cs = none)

/-- R103 and R104: the host operations of the script lines, with the register numbers of R21 written
out. The line `units` is the model's own (log 12, DESIGN CHOICE): it stands for `TEXT` under another
mapping of the host, and the `TEXT` clause goes through it. That a length of 2^32 or more is written
modulo 2^32 is the model's choice too (log 17). -/
def Obligations.ScriptLinesExpand : Prop :=
  (regNumber .cmd = 0 ∧ regNumber .result = 1 ∧ regNumber .width = 2 ∧ regNumber .height = 3 ∧
    regNumber .nch = 4 ∧ regNumber .chsel = 5 ∧ regNumber .mlen = 6 ∧ regNumber .msgLen = 7 ∧
    regNumber .bitsLen = 8 ∧ regNumber .outLen = 9 ∧ regNumber .cur = 10) ∧
  (∀ r v, expandLine (.wr r v) = some [.write .reg (regNumber r) v]) ∧
  (∀ r, expandLine (.rd r) = some [.read .reg (regNumber r)]) ∧
  (∀ sp a v, sp ≠ .reg → expandLine (.st sp a v) = some [.write sp a v] ∧
    expandLine (.ld sp a) = some [.read sp a]) ∧
  (∀ i, expandLine (.cmd i) = some [.write .reg 0 (encode i)]) ∧
  (∀ w h n, expandLine (.grid w h n) =
    some [.write .reg 2 w, .write .reg 3 h, .write .reg 4 n]) ∧
  expandLine .encode = some [.write .reg 0 6#32] ∧
  expandLine .decode = some [.write .reg 0 8#32] ∧
  (∀ sp a n v, sp ≠ .reg → expandLine (.fill sp a n v) =
    some ((List.range n).map (fun i => .write sp (a + i) v))) ∧
  (∀ sp a (vs : List Word), sp ≠ .reg → expandLine (.bytes sp a vs) =
    some (vs.zipIdx.map (fun c => .write sp (a + c.2) c.1))) ∧
  (∀ (m : List Byte), expandLine (.units m) =
    some (m.zipIdx.map (fun c => .write .msg c.2 (c.1.setWidth 32)) ++
      [.write .reg 7 (BitVec.ofNat 32 m.length)])) ∧
  (∀ (cs : List Char) (m : List Byte), ordinalMap cs = some m →
    expandLine (.text cs) = expandLine (.units m)) ∧
  (∀ (p : List Bit), expandLine (.marker p) =
    some (p.zipIdx.map (fun c => .write .mrkr c.2 (if c.1 then 1#32 else 0#32)) ++
      [.write .reg 6 (BitVec.ofNat 32 p.length)]))
end

