-- ==== Sys2Proof/Laws/State.lean ====
section
/-! SUPPORT. What each primitive update of State does to each field and to each accessor: one lemma
per field per update, true by unfolding, for the simplifier. Reads after writes of the same memory
are in Laws/Memory.lean. -/

namespace Sys2Proof.Machine

variable (s : State)

/-! ### writePix -/

theorem writePix_pix (a : Nat) (v : Byte) :
    (writePix s a v).pix = Memory.write unlistedByte s.pix a v := rfl
@[simp] theorem writePix_regs (a : Nat) (v : Byte) : (writePix s a v).regs = s.regs := rfl
@[simp] theorem writePix_msg (a : Nat) (v : Byte) : (writePix s a v).msg = s.msg := rfl
@[simp] theorem writePix_mrkr (a : Nat) (v : Byte) : (writePix s a v).mrkr = s.mrkr := rfl
@[simp] theorem writePix_bits (a : Nat) (v : Byte) : (writePix s a v).bits = s.bits := rfl
@[simp] theorem writePix_out (a : Nat) (v : Byte) : (writePix s a v).out = s.out := rfl
@[simp] theorem writePix_sizes (a : Nat) (v : Byte) : (writePix s a v).sizes = s.sizes := rfl
@[simp] theorem writePix_resets (a : Nat) (v : Byte) : (writePix s a v).resets = s.resets := rfl
@[simp] theorem writePix_script (a : Nat) (v : Byte) : (writePix s a v).script = s.script := rfl
@[simp] theorem writePix_reads (a : Nat) (v : Byte) : (writePix s a v).reads = s.reads := rfl
@[simp] theorem writePix_widthOf (a : Nat) (v : Byte) : widthOf (writePix s a v) = widthOf s := rfl
@[simp] theorem writePix_heightOf (a : Nat) (v : Byte) :
    heightOf (writePix s a v) = heightOf s := rfl
@[simp] theorem writePix_nchOf (a : Nat) (v : Byte) : nchOf (writePix s a v) = nchOf s := rfl
@[simp] theorem writePix_chselOf (a : Nat) (v : Byte) : chselOf (writePix s a v) = chselOf s := rfl
@[simp] theorem writePix_mlenOf (a : Nat) (v : Byte) : mlenOf (writePix s a v) = mlenOf s := rfl
@[simp] theorem writePix_msgLenOf (a : Nat) (v : Byte) :
    msgLenOf (writePix s a v) = msgLenOf s := rfl
@[simp] theorem writePix_bitsLenOf (a : Nat) (v : Byte) :
    bitsLenOf (writePix s a v) = bitsLenOf s := rfl
@[simp] theorem writePix_outLenOf (a : Nat) (v : Byte) :
    outLenOf (writePix s a v) = outLenOf s := rfl
@[simp] theorem writePix_curOf (a : Nat) (v : Byte) : curOf (writePix s a v) = curOf s := rfl
@[simp] theorem writePix_capacityOf (a : Nat) (v : Byte) :
    capacityOf (writePix s a v) = capacityOf s := rfl
@[simp] theorem readMsg_writePix (a : Nat) (v : Byte) (i : Nat) :
    readMsg (writePix s a v) i = readMsg s i := rfl
@[simp] theorem readMrkr_writePix (a : Nat) (v : Byte) (i : Nat) :
    readMrkr (writePix s a v) i = readMrkr s i := rfl
@[simp] theorem readBit_writePix (a : Nat) (v : Byte) (i : Nat) :
    readBit (writePix s a v) i = readBit s i := rfl
@[simp] theorem readOut_writePix (a : Nat) (v : Byte) (i : Nat) :
    readOut (writePix s a v) i = readOut s i := rfl
@[simp] theorem writePix_designatedCell (a : Nat) (v : Byte) (p : Nat) :
    designatedCell (writePix s a v) p = designatedCell s p := rfl
@[simp] theorem markerSeq_writePix (a : Nat) (v : Byte) :
    markerSeq (writePix s a v) = markerSeq s := rfl
@[simp] theorem msgSeq_writePix (a : Nat) (v : Byte) : msgSeq (writePix s a v) = msgSeq s := rfl

/-! ### writeMsg -/

theorem writeMsg_msg (a : Nat) (v : Byte) :
    (writeMsg s a v).msg = Memory.write unlistedByte s.msg a v := rfl
@[simp] theorem writeMsg_regs (a : Nat) (v : Byte) : (writeMsg s a v).regs = s.regs := rfl
@[simp] theorem writeMsg_pix (a : Nat) (v : Byte) : (writeMsg s a v).pix = s.pix := rfl
@[simp] theorem writeMsg_mrkr (a : Nat) (v : Byte) : (writeMsg s a v).mrkr = s.mrkr := rfl
@[simp] theorem writeMsg_bits (a : Nat) (v : Byte) : (writeMsg s a v).bits = s.bits := rfl
@[simp] theorem writeMsg_out (a : Nat) (v : Byte) : (writeMsg s a v).out = s.out := rfl
@[simp] theorem writeMsg_sizes (a : Nat) (v : Byte) : (writeMsg s a v).sizes = s.sizes := rfl
@[simp] theorem writeMsg_resets (a : Nat) (v : Byte) : (writeMsg s a v).resets = s.resets := rfl
@[simp] theorem writeMsg_script (a : Nat) (v : Byte) : (writeMsg s a v).script = s.script := rfl
@[simp] theorem writeMsg_reads (a : Nat) (v : Byte) : (writeMsg s a v).reads = s.reads := rfl
@[simp] theorem writeMsg_widthOf (a : Nat) (v : Byte) : widthOf (writeMsg s a v) = widthOf s := rfl
@[simp] theorem writeMsg_heightOf (a : Nat) (v : Byte) :
    heightOf (writeMsg s a v) = heightOf s := rfl
@[simp] theorem writeMsg_nchOf (a : Nat) (v : Byte) : nchOf (writeMsg s a v) = nchOf s := rfl
@[simp] theorem writeMsg_chselOf (a : Nat) (v : Byte) : chselOf (writeMsg s a v) = chselOf s := rfl
@[simp] theorem writeMsg_mlenOf (a : Nat) (v : Byte) : mlenOf (writeMsg s a v) = mlenOf s := rfl
@[simp] theorem writeMsg_msgLenOf (a : Nat) (v : Byte) :
    msgLenOf (writeMsg s a v) = msgLenOf s := rfl
@[simp] theorem writeMsg_bitsLenOf (a : Nat) (v : Byte) :
    bitsLenOf (writeMsg s a v) = bitsLenOf s := rfl
@[simp] theorem writeMsg_outLenOf (a : Nat) (v : Byte) :
    outLenOf (writeMsg s a v) = outLenOf s := rfl
@[simp] theorem writeMsg_curOf (a : Nat) (v : Byte) : curOf (writeMsg s a v) = curOf s := rfl
@[simp] theorem writeMsg_capacityOf (a : Nat) (v : Byte) :
    capacityOf (writeMsg s a v) = capacityOf s := rfl
@[simp] theorem readPix_writeMsg (a : Nat) (v : Byte) (i : Nat) :
    readPix (writeMsg s a v) i = readPix s i := rfl
@[simp] theorem readMrkr_writeMsg (a : Nat) (v : Byte) (i : Nat) :
    readMrkr (writeMsg s a v) i = readMrkr s i := rfl
@[simp] theorem readBit_writeMsg (a : Nat) (v : Byte) (i : Nat) :
    readBit (writeMsg s a v) i = readBit s i := rfl
@[simp] theorem readOut_writeMsg (a : Nat) (v : Byte) (i : Nat) :
    readOut (writeMsg s a v) i = readOut s i := rfl
@[simp] theorem writeMsg_designatedCell (a : Nat) (v : Byte) (p : Nat) :
    designatedCell (writeMsg s a v) p = designatedCell s p := rfl
@[simp] theorem markerSeq_writeMsg (a : Nat) (v : Byte) :
    markerSeq (writeMsg s a v) = markerSeq s := rfl

/-! ### writeMrkr -/

theorem writeMrkr_mrkr (a : Nat) (v : Bit) :
    (writeMrkr s a v).mrkr = Memory.write unlistedMarkerBit s.mrkr a v := rfl
@[simp] theorem writeMrkr_regs (a : Nat) (v : Bit) : (writeMrkr s a v).regs = s.regs := rfl
@[simp] theorem writeMrkr_pix (a : Nat) (v : Bit) : (writeMrkr s a v).pix = s.pix := rfl
@[simp] theorem writeMrkr_msg (a : Nat) (v : Bit) : (writeMrkr s a v).msg = s.msg := rfl
@[simp] theorem writeMrkr_bits (a : Nat) (v : Bit) : (writeMrkr s a v).bits = s.bits := rfl
@[simp] theorem writeMrkr_out (a : Nat) (v : Bit) : (writeMrkr s a v).out = s.out := rfl
@[simp] theorem writeMrkr_sizes (a : Nat) (v : Bit) : (writeMrkr s a v).sizes = s.sizes := rfl
@[simp] theorem writeMrkr_resets (a : Nat) (v : Bit) : (writeMrkr s a v).resets = s.resets := rfl
@[simp] theorem writeMrkr_script (a : Nat) (v : Bit) : (writeMrkr s a v).script = s.script := rfl
@[simp] theorem writeMrkr_reads (a : Nat) (v : Bit) : (writeMrkr s a v).reads = s.reads := rfl
@[simp] theorem writeMrkr_widthOf (a : Nat) (v : Bit) :
    widthOf (writeMrkr s a v) = widthOf s := rfl
@[simp] theorem writeMrkr_heightOf (a : Nat) (v : Bit) :
    heightOf (writeMrkr s a v) = heightOf s := rfl
@[simp] theorem writeMrkr_nchOf (a : Nat) (v : Bit) : nchOf (writeMrkr s a v) = nchOf s := rfl
@[simp] theorem writeMrkr_chselOf (a : Nat) (v : Bit) :
    chselOf (writeMrkr s a v) = chselOf s := rfl
@[simp] theorem writeMrkr_mlenOf (a : Nat) (v : Bit) : mlenOf (writeMrkr s a v) = mlenOf s := rfl
@[simp] theorem writeMrkr_msgLenOf (a : Nat) (v : Bit) :
    msgLenOf (writeMrkr s a v) = msgLenOf s := rfl
@[simp] theorem writeMrkr_bitsLenOf (a : Nat) (v : Bit) :
    bitsLenOf (writeMrkr s a v) = bitsLenOf s := rfl
@[simp] theorem writeMrkr_outLenOf (a : Nat) (v : Bit) :
    outLenOf (writeMrkr s a v) = outLenOf s := rfl
@[simp] theorem writeMrkr_curOf (a : Nat) (v : Bit) : curOf (writeMrkr s a v) = curOf s := rfl
@[simp] theorem writeMrkr_capacityOf (a : Nat) (v : Bit) :
    capacityOf (writeMrkr s a v) = capacityOf s := rfl
@[simp] theorem readPix_writeMrkr (a : Nat) (v : Bit) (i : Nat) :
    readPix (writeMrkr s a v) i = readPix s i := rfl
@[simp] theorem readMsg_writeMrkr (a : Nat) (v : Bit) (i : Nat) :
    readMsg (writeMrkr s a v) i = readMsg s i := rfl
@[simp] theorem readBit_writeMrkr (a : Nat) (v : Bit) (i : Nat) :
    readBit (writeMrkr s a v) i = readBit s i := rfl
@[simp] theorem readOut_writeMrkr (a : Nat) (v : Bit) (i : Nat) :
    readOut (writeMrkr s a v) i = readOut s i := rfl
@[simp] theorem writeMrkr_designatedCell (a : Nat) (v : Bit) (p : Nat) :
    designatedCell (writeMrkr s a v) p = designatedCell s p := rfl
@[simp] theorem msgSeq_writeMrkr (a : Nat) (v : Bit) : msgSeq (writeMrkr s a v) = msgSeq s := rfl

/-! ### writeBit -/

theorem writeBit_bits (a : Nat) (v : Bit) :
    (writeBit s a v).bits = Memory.write unlistedBit s.bits a v := rfl
@[simp] theorem writeBit_regs (a : Nat) (v : Bit) : (writeBit s a v).regs = s.regs := rfl
@[simp] theorem writeBit_pix (a : Nat) (v : Bit) : (writeBit s a v).pix = s.pix := rfl
@[simp] theorem writeBit_msg (a : Nat) (v : Bit) : (writeBit s a v).msg = s.msg := rfl
@[simp] theorem writeBit_mrkr (a : Nat) (v : Bit) : (writeBit s a v).mrkr = s.mrkr := rfl
@[simp] theorem writeBit_out (a : Nat) (v : Bit) : (writeBit s a v).out = s.out := rfl
@[simp] theorem writeBit_sizes (a : Nat) (v : Bit) : (writeBit s a v).sizes = s.sizes := rfl
@[simp] theorem writeBit_resets (a : Nat) (v : Bit) : (writeBit s a v).resets = s.resets := rfl
@[simp] theorem writeBit_script (a : Nat) (v : Bit) : (writeBit s a v).script = s.script := rfl
@[simp] theorem writeBit_reads (a : Nat) (v : Bit) : (writeBit s a v).reads = s.reads := rfl
@[simp] theorem writeBit_widthOf (a : Nat) (v : Bit) : widthOf (writeBit s a v) = widthOf s := rfl
@[simp] theorem writeBit_heightOf (a : Nat) (v : Bit) :
    heightOf (writeBit s a v) = heightOf s := rfl
@[simp] theorem writeBit_nchOf (a : Nat) (v : Bit) : nchOf (writeBit s a v) = nchOf s := rfl
@[simp] theorem writeBit_chselOf (a : Nat) (v : Bit) : chselOf (writeBit s a v) = chselOf s := rfl
@[simp] theorem writeBit_mlenOf (a : Nat) (v : Bit) : mlenOf (writeBit s a v) = mlenOf s := rfl
@[simp] theorem writeBit_msgLenOf (a : Nat) (v : Bit) :
    msgLenOf (writeBit s a v) = msgLenOf s := rfl
@[simp] theorem writeBit_bitsLenOf (a : Nat) (v : Bit) :
    bitsLenOf (writeBit s a v) = bitsLenOf s := rfl
@[simp] theorem writeBit_outLenOf (a : Nat) (v : Bit) :
    outLenOf (writeBit s a v) = outLenOf s := rfl
@[simp] theorem writeBit_curOf (a : Nat) (v : Bit) : curOf (writeBit s a v) = curOf s := rfl
@[simp] theorem writeBit_capacityOf (a : Nat) (v : Bit) :
    capacityOf (writeBit s a v) = capacityOf s := rfl
@[simp] theorem readPix_writeBit (a : Nat) (v : Bit) (i : Nat) :
    readPix (writeBit s a v) i = readPix s i := rfl
@[simp] theorem readMsg_writeBit (a : Nat) (v : Bit) (i : Nat) :
    readMsg (writeBit s a v) i = readMsg s i := rfl
@[simp] theorem readMrkr_writeBit (a : Nat) (v : Bit) (i : Nat) :
    readMrkr (writeBit s a v) i = readMrkr s i := rfl
@[simp] theorem readOut_writeBit (a : Nat) (v : Bit) (i : Nat) :
    readOut (writeBit s a v) i = readOut s i := rfl
@[simp] theorem writeBit_designatedCell (a : Nat) (v : Bit) (p : Nat) :
    designatedCell (writeBit s a v) p = designatedCell s p := rfl
@[simp] theorem markerSeq_writeBit (a : Nat) (v : Bit) :
    markerSeq (writeBit s a v) = markerSeq s := rfl
@[simp] theorem msgSeq_writeBit (a : Nat) (v : Bit) : msgSeq (writeBit s a v) = msgSeq s := rfl

/-! ### writeOut -/

theorem writeOut_out (a : Nat) (v : Byte) :
    (writeOut s a v).out = Memory.write unlistedByte s.out a v := rfl
@[simp] theorem writeOut_regs (a : Nat) (v : Byte) : (writeOut s a v).regs = s.regs := rfl
@[simp] theorem writeOut_pix (a : Nat) (v : Byte) : (writeOut s a v).pix = s.pix := rfl
@[simp] theorem writeOut_msg (a : Nat) (v : Byte) : (writeOut s a v).msg = s.msg := rfl
@[simp] theorem writeOut_mrkr (a : Nat) (v : Byte) : (writeOut s a v).mrkr = s.mrkr := rfl
@[simp] theorem writeOut_bits (a : Nat) (v : Byte) : (writeOut s a v).bits = s.bits := rfl
@[simp] theorem writeOut_sizes (a : Nat) (v : Byte) : (writeOut s a v).sizes = s.sizes := rfl
@[simp] theorem writeOut_resets (a : Nat) (v : Byte) : (writeOut s a v).resets = s.resets := rfl
@[simp] theorem writeOut_script (a : Nat) (v : Byte) : (writeOut s a v).script = s.script := rfl
@[simp] theorem writeOut_reads (a : Nat) (v : Byte) : (writeOut s a v).reads = s.reads := rfl
@[simp] theorem writeOut_widthOf (a : Nat) (v : Byte) : widthOf (writeOut s a v) = widthOf s := rfl
@[simp] theorem writeOut_heightOf (a : Nat) (v : Byte) :
    heightOf (writeOut s a v) = heightOf s := rfl
@[simp] theorem writeOut_nchOf (a : Nat) (v : Byte) : nchOf (writeOut s a v) = nchOf s := rfl
@[simp] theorem writeOut_chselOf (a : Nat) (v : Byte) : chselOf (writeOut s a v) = chselOf s := rfl
@[simp] theorem writeOut_mlenOf (a : Nat) (v : Byte) : mlenOf (writeOut s a v) = mlenOf s := rfl
@[simp] theorem writeOut_msgLenOf (a : Nat) (v : Byte) :
    msgLenOf (writeOut s a v) = msgLenOf s := rfl
@[simp] theorem writeOut_bitsLenOf (a : Nat) (v : Byte) :
    bitsLenOf (writeOut s a v) = bitsLenOf s := rfl
@[simp] theorem writeOut_outLenOf (a : Nat) (v : Byte) :
    outLenOf (writeOut s a v) = outLenOf s := rfl
@[simp] theorem writeOut_curOf (a : Nat) (v : Byte) : curOf (writeOut s a v) = curOf s := rfl
@[simp] theorem writeOut_capacityOf (a : Nat) (v : Byte) :
    capacityOf (writeOut s a v) = capacityOf s := rfl
@[simp] theorem readPix_writeOut (a : Nat) (v : Byte) (i : Nat) :
    readPix (writeOut s a v) i = readPix s i := rfl
@[simp] theorem readMsg_writeOut (a : Nat) (v : Byte) (i : Nat) :
    readMsg (writeOut s a v) i = readMsg s i := rfl
@[simp] theorem readMrkr_writeOut (a : Nat) (v : Byte) (i : Nat) :
    readMrkr (writeOut s a v) i = readMrkr s i := rfl
@[simp] theorem readBit_writeOut (a : Nat) (v : Byte) (i : Nat) :
    readBit (writeOut s a v) i = readBit s i := rfl
@[simp] theorem writeOut_designatedCell (a : Nat) (v : Byte) (p : Nat) :
    designatedCell (writeOut s a v) p = designatedCell s p := rfl
@[simp] theorem markerSeq_writeOut (a : Nat) (v : Byte) :
    markerSeq (writeOut s a v) = markerSeq s := rfl
@[simp] theorem msgSeq_writeOut (a : Nat) (v : Byte) : msgSeq (writeOut s a v) = msgSeq s := rfl

/-! ### setCmd -/

@[simp] theorem setCmd_regs (w : Word) : (setCmd s w).regs = { s.regs with cmd := w } := rfl
@[simp] theorem setCmd_pix (w : Word) : (setCmd s w).pix = s.pix := rfl
@[simp] theorem setCmd_msg (w : Word) : (setCmd s w).msg = s.msg := rfl
@[simp] theorem setCmd_mrkr (w : Word) : (setCmd s w).mrkr = s.mrkr := rfl
@[simp] theorem setCmd_bits (w : Word) : (setCmd s w).bits = s.bits := rfl
@[simp] theorem setCmd_out (w : Word) : (setCmd s w).out = s.out := rfl
@[simp] theorem setCmd_sizes (w : Word) : (setCmd s w).sizes = s.sizes := rfl
@[simp] theorem setCmd_resets (w : Word) : (setCmd s w).resets = s.resets := rfl
@[simp] theorem setCmd_script (w : Word) : (setCmd s w).script = s.script := rfl
@[simp] theorem setCmd_reads (w : Word) : (setCmd s w).reads = s.reads := rfl
@[simp] theorem setCmd_widthOf (w : Word) : widthOf (setCmd s w) = widthOf s := rfl
@[simp] theorem setCmd_heightOf (w : Word) : heightOf (setCmd s w) = heightOf s := rfl
@[simp] theorem setCmd_nchOf (w : Word) : nchOf (setCmd s w) = nchOf s := rfl
@[simp] theorem setCmd_chselOf (w : Word) : chselOf (setCmd s w) = chselOf s := rfl
@[simp] theorem setCmd_mlenOf (w : Word) : mlenOf (setCmd s w) = mlenOf s := rfl
@[simp] theorem setCmd_msgLenOf (w : Word) : msgLenOf (setCmd s w) = msgLenOf s := rfl
@[simp] theorem setCmd_bitsLenOf (w : Word) : bitsLenOf (setCmd s w) = bitsLenOf s := rfl
@[simp] theorem setCmd_outLenOf (w : Word) : outLenOf (setCmd s w) = outLenOf s := rfl
@[simp] theorem setCmd_curOf (w : Word) : curOf (setCmd s w) = curOf s := rfl
@[simp] theorem setCmd_capacityOf (w : Word) : capacityOf (setCmd s w) = capacityOf s := rfl
@[simp] theorem readPix_setCmd (w : Word) (i : Nat) : readPix (setCmd s w) i = readPix s i := rfl
@[simp] theorem readMsg_setCmd (w : Word) (i : Nat) : readMsg (setCmd s w) i = readMsg s i := rfl
@[simp] theorem readMrkr_setCmd (w : Word) (i : Nat) :
    readMrkr (setCmd s w) i = readMrkr s i := rfl
@[simp] theorem readBit_setCmd (w : Word) (i : Nat) : readBit (setCmd s w) i = readBit s i := rfl
@[simp] theorem readOut_setCmd (w : Word) (i : Nat) : readOut (setCmd s w) i = readOut s i := rfl
@[simp] theorem setCmd_designatedCell (w : Word) (p : Nat) :
    designatedCell (setCmd s w) p = designatedCell s p := rfl
@[simp] theorem markerSeq_setCmd (w : Word) : markerSeq (setCmd s w) = markerSeq s := rfl
@[simp] theorem msgSeq_setCmd (w : Word) : msgSeq (setCmd s w) = msgSeq s := rfl

/-! ### setBitsLen -/

@[simp] theorem setBitsLen_regs (n : Nat) :
    (setBitsLen s n).regs = { s.regs with bitsLen := BitVec.ofNat 32 n } := rfl
@[simp] theorem setBitsLen_pix (n : Nat) : (setBitsLen s n).pix = s.pix := rfl
@[simp] theorem setBitsLen_msg (n : Nat) : (setBitsLen s n).msg = s.msg := rfl
@[simp] theorem setBitsLen_mrkr (n : Nat) : (setBitsLen s n).mrkr = s.mrkr := rfl
@[simp] theorem setBitsLen_bits (n : Nat) : (setBitsLen s n).bits = s.bits := rfl
@[simp] theorem setBitsLen_out (n : Nat) : (setBitsLen s n).out = s.out := rfl
@[simp] theorem setBitsLen_sizes (n : Nat) : (setBitsLen s n).sizes = s.sizes := rfl
@[simp] theorem setBitsLen_resets (n : Nat) : (setBitsLen s n).resets = s.resets := rfl
@[simp] theorem setBitsLen_script (n : Nat) : (setBitsLen s n).script = s.script := rfl
@[simp] theorem setBitsLen_reads (n : Nat) : (setBitsLen s n).reads = s.reads := rfl
@[simp] theorem setBitsLen_widthOf (n : Nat) : widthOf (setBitsLen s n) = widthOf s := rfl
@[simp] theorem setBitsLen_heightOf (n : Nat) : heightOf (setBitsLen s n) = heightOf s := rfl
@[simp] theorem setBitsLen_nchOf (n : Nat) : nchOf (setBitsLen s n) = nchOf s := rfl
@[simp] theorem setBitsLen_chselOf (n : Nat) : chselOf (setBitsLen s n) = chselOf s := rfl
@[simp] theorem setBitsLen_mlenOf (n : Nat) : mlenOf (setBitsLen s n) = mlenOf s := rfl
@[simp] theorem setBitsLen_msgLenOf (n : Nat) : msgLenOf (setBitsLen s n) = msgLenOf s := rfl
@[simp] theorem setBitsLen_outLenOf (n : Nat) : outLenOf (setBitsLen s n) = outLenOf s := rfl
@[simp] theorem setBitsLen_curOf (n : Nat) : curOf (setBitsLen s n) = curOf s := rfl
@[simp] theorem setBitsLen_capacityOf (n : Nat) : capacityOf (setBitsLen s n) = capacityOf s := rfl
@[simp] theorem readPix_setBitsLen (n : Nat) (i : Nat) :
    readPix (setBitsLen s n) i = readPix s i := rfl
@[simp] theorem readMsg_setBitsLen (n : Nat) (i : Nat) :
    readMsg (setBitsLen s n) i = readMsg s i := rfl
@[simp] theorem readMrkr_setBitsLen (n : Nat) (i : Nat) :
    readMrkr (setBitsLen s n) i = readMrkr s i := rfl
@[simp] theorem readBit_setBitsLen (n : Nat) (i : Nat) :
    readBit (setBitsLen s n) i = readBit s i := rfl
@[simp] theorem readOut_setBitsLen (n : Nat) (i : Nat) :
    readOut (setBitsLen s n) i = readOut s i := rfl
@[simp] theorem setBitsLen_designatedCell (n : Nat) (p : Nat) :
    designatedCell (setBitsLen s n) p = designatedCell s p := rfl
@[simp] theorem markerSeq_setBitsLen (n : Nat) : markerSeq (setBitsLen s n) = markerSeq s := rfl
@[simp] theorem msgSeq_setBitsLen (n : Nat) : msgSeq (setBitsLen s n) = msgSeq s := rfl

/-! ### setOutLen -/

@[simp] theorem setOutLen_regs (n : Nat) :
    (setOutLen s n).regs = { s.regs with outLen := BitVec.ofNat 32 n } := rfl
@[simp] theorem setOutLen_pix (n : Nat) : (setOutLen s n).pix = s.pix := rfl
@[simp] theorem setOutLen_msg (n : Nat) : (setOutLen s n).msg = s.msg := rfl
@[simp] theorem setOutLen_mrkr (n : Nat) : (setOutLen s n).mrkr = s.mrkr := rfl
@[simp] theorem setOutLen_bits (n : Nat) : (setOutLen s n).bits = s.bits := rfl
@[simp] theorem setOutLen_out (n : Nat) : (setOutLen s n).out = s.out := rfl
@[simp] theorem setOutLen_sizes (n : Nat) : (setOutLen s n).sizes = s.sizes := rfl
@[simp] theorem setOutLen_resets (n : Nat) : (setOutLen s n).resets = s.resets := rfl
@[simp] theorem setOutLen_script (n : Nat) : (setOutLen s n).script = s.script := rfl
@[simp] theorem setOutLen_reads (n : Nat) : (setOutLen s n).reads = s.reads := rfl
@[simp] theorem setOutLen_widthOf (n : Nat) : widthOf (setOutLen s n) = widthOf s := rfl
@[simp] theorem setOutLen_heightOf (n : Nat) : heightOf (setOutLen s n) = heightOf s := rfl
@[simp] theorem setOutLen_nchOf (n : Nat) : nchOf (setOutLen s n) = nchOf s := rfl
@[simp] theorem setOutLen_chselOf (n : Nat) : chselOf (setOutLen s n) = chselOf s := rfl
@[simp] theorem setOutLen_mlenOf (n : Nat) : mlenOf (setOutLen s n) = mlenOf s := rfl
@[simp] theorem setOutLen_msgLenOf (n : Nat) : msgLenOf (setOutLen s n) = msgLenOf s := rfl
@[simp] theorem setOutLen_bitsLenOf (n : Nat) : bitsLenOf (setOutLen s n) = bitsLenOf s := rfl
@[simp] theorem setOutLen_curOf (n : Nat) : curOf (setOutLen s n) = curOf s := rfl
@[simp] theorem setOutLen_capacityOf (n : Nat) : capacityOf (setOutLen s n) = capacityOf s := rfl
@[simp] theorem readPix_setOutLen (n : Nat) (i : Nat) :
    readPix (setOutLen s n) i = readPix s i := rfl
@[simp] theorem readMsg_setOutLen (n : Nat) (i : Nat) :
    readMsg (setOutLen s n) i = readMsg s i := rfl
@[simp] theorem readMrkr_setOutLen (n : Nat) (i : Nat) :
    readMrkr (setOutLen s n) i = readMrkr s i := rfl
@[simp] theorem readBit_setOutLen (n : Nat) (i : Nat) :
    readBit (setOutLen s n) i = readBit s i := rfl
@[simp] theorem readOut_setOutLen (n : Nat) (i : Nat) :
    readOut (setOutLen s n) i = readOut s i := rfl
@[simp] theorem setOutLen_designatedCell (n : Nat) (p : Nat) :
    designatedCell (setOutLen s n) p = designatedCell s p := rfl
@[simp] theorem markerSeq_setOutLen (n : Nat) : markerSeq (setOutLen s n) = markerSeq s := rfl
@[simp] theorem msgSeq_setOutLen (n : Nat) : msgSeq (setOutLen s n) = msgSeq s := rfl

/-! ### setCur -/

@[simp] theorem setCur_regs (n : Nat) :
    (setCur s n).regs = { s.regs with cur := BitVec.ofNat 32 n } := rfl
@[simp] theorem setCur_pix (n : Nat) : (setCur s n).pix = s.pix := rfl
@[simp] theorem setCur_msg (n : Nat) : (setCur s n).msg = s.msg := rfl
@[simp] theorem setCur_mrkr (n : Nat) : (setCur s n).mrkr = s.mrkr := rfl
@[simp] theorem setCur_bits (n : Nat) : (setCur s n).bits = s.bits := rfl
@[simp] theorem setCur_out (n : Nat) : (setCur s n).out = s.out := rfl
@[simp] theorem setCur_sizes (n : Nat) : (setCur s n).sizes = s.sizes := rfl
@[simp] theorem setCur_resets (n : Nat) : (setCur s n).resets = s.resets := rfl
@[simp] theorem setCur_script (n : Nat) : (setCur s n).script = s.script := rfl
@[simp] theorem setCur_reads (n : Nat) : (setCur s n).reads = s.reads := rfl
@[simp] theorem setCur_widthOf (n : Nat) : widthOf (setCur s n) = widthOf s := rfl
@[simp] theorem setCur_heightOf (n : Nat) : heightOf (setCur s n) = heightOf s := rfl
@[simp] theorem setCur_nchOf (n : Nat) : nchOf (setCur s n) = nchOf s := rfl
@[simp] theorem setCur_chselOf (n : Nat) : chselOf (setCur s n) = chselOf s := rfl
@[simp] theorem setCur_mlenOf (n : Nat) : mlenOf (setCur s n) = mlenOf s := rfl
@[simp] theorem setCur_msgLenOf (n : Nat) : msgLenOf (setCur s n) = msgLenOf s := rfl
@[simp] theorem setCur_bitsLenOf (n : Nat) : bitsLenOf (setCur s n) = bitsLenOf s := rfl
@[simp] theorem setCur_outLenOf (n : Nat) : outLenOf (setCur s n) = outLenOf s := rfl
@[simp] theorem setCur_capacityOf (n : Nat) : capacityOf (setCur s n) = capacityOf s := rfl
@[simp] theorem readPix_setCur (n : Nat) (i : Nat) : readPix (setCur s n) i = readPix s i := rfl
@[simp] theorem readMsg_setCur (n : Nat) (i : Nat) : readMsg (setCur s n) i = readMsg s i := rfl
@[simp] theorem readMrkr_setCur (n : Nat) (i : Nat) : readMrkr (setCur s n) i = readMrkr s i := rfl
@[simp] theorem readBit_setCur (n : Nat) (i : Nat) : readBit (setCur s n) i = readBit s i := rfl
@[simp] theorem readOut_setCur (n : Nat) (i : Nat) : readOut (setCur s n) i = readOut s i := rfl
@[simp] theorem setCur_designatedCell (n : Nat) (p : Nat) :
    designatedCell (setCur s n) p = designatedCell s p := rfl
@[simp] theorem markerSeq_setCur (n : Nat) : markerSeq (setCur s n) = markerSeq s := rfl
@[simp] theorem msgSeq_setCur (n : Nat) : msgSeq (setCur s n) = msgSeq s := rfl

/-! ### raise -/

@[simp] theorem raise_regs (k : ResultKind) :
    (raise k s).regs = { s.regs with result := resultCode k } := rfl
@[simp] theorem raise_pix (k : ResultKind) : (raise k s).pix = s.pix := rfl
@[simp] theorem raise_msg (k : ResultKind) : (raise k s).msg = s.msg := rfl
@[simp] theorem raise_mrkr (k : ResultKind) : (raise k s).mrkr = s.mrkr := rfl
@[simp] theorem raise_bits (k : ResultKind) : (raise k s).bits = s.bits := rfl
@[simp] theorem raise_out (k : ResultKind) : (raise k s).out = s.out := rfl
@[simp] theorem raise_sizes (k : ResultKind) : (raise k s).sizes = s.sizes := rfl
@[simp] theorem raise_resets (k : ResultKind) : (raise k s).resets = s.resets := rfl
@[simp] theorem raise_script (k : ResultKind) : (raise k s).script = s.script := rfl
@[simp] theorem raise_reads (k : ResultKind) : (raise k s).reads = s.reads := rfl
@[simp] theorem raise_widthOf (k : ResultKind) : widthOf (raise k s) = widthOf s := rfl
@[simp] theorem raise_heightOf (k : ResultKind) : heightOf (raise k s) = heightOf s := rfl
@[simp] theorem raise_nchOf (k : ResultKind) : nchOf (raise k s) = nchOf s := rfl
@[simp] theorem raise_chselOf (k : ResultKind) : chselOf (raise k s) = chselOf s := rfl
@[simp] theorem raise_mlenOf (k : ResultKind) : mlenOf (raise k s) = mlenOf s := rfl
@[simp] theorem raise_msgLenOf (k : ResultKind) : msgLenOf (raise k s) = msgLenOf s := rfl
@[simp] theorem raise_bitsLenOf (k : ResultKind) : bitsLenOf (raise k s) = bitsLenOf s := rfl
@[simp] theorem raise_outLenOf (k : ResultKind) : outLenOf (raise k s) = outLenOf s := rfl
@[simp] theorem raise_curOf (k : ResultKind) : curOf (raise k s) = curOf s := rfl
@[simp] theorem raise_capacityOf (k : ResultKind) : capacityOf (raise k s) = capacityOf s := rfl
@[simp] theorem readPix_raise (k : ResultKind) (i : Nat) :
    readPix (raise k s) i = readPix s i := rfl
@[simp] theorem readMsg_raise (k : ResultKind) (i : Nat) :
    readMsg (raise k s) i = readMsg s i := rfl
@[simp] theorem readMrkr_raise (k : ResultKind) (i : Nat) :
    readMrkr (raise k s) i = readMrkr s i := rfl
@[simp] theorem readBit_raise (k : ResultKind) (i : Nat) :
    readBit (raise k s) i = readBit s i := rfl
@[simp] theorem readOut_raise (k : ResultKind) (i : Nat) :
    readOut (raise k s) i = readOut s i := rfl
@[simp] theorem raise_designatedCell (k : ResultKind) (p : Nat) :
    designatedCell (raise k s) p = designatedCell s p := rfl
@[simp] theorem markerSeq_raise (k : ResultKind) : markerSeq (raise k s) = markerSeq s := rfl
@[simp] theorem msgSeq_raise (k : ResultKind) : msgSeq (raise k s) = msgSeq s := rfl

/-! ### Registers set to a number that fits 32 bits -/

theorem bitsLenOf_setBitsLen {n : Nat} (h : n < 2 ^ 32) : bitsLenOf (setBitsLen s n) = n := by
  simpa [bitsLenOf] using h

theorem outLenOf_setOutLen {n : Nat} (h : n < 2 ^ 32) : outLenOf (setOutLen s n) = n := by
  simpa [outLenOf] using h

theorem curOf_setCur {n : Nat} (h : n < 2 ^ 32) : curOf (setCur s n) = n := by
  simpa [curOf] using h

end Sys2Proof.Machine
end

