-- ==== Sys2Proof/Laws/Memory.lean ====
section
/-! SUPPORT. The laws of one memory and of one cell of each memory of the machine: a read after a
write, and that every memory operation keeps the canonical form. -/

namespace Sys2Proof.Machine

section Lists

variable {α : Type}

theorem Memory.lookup_insert (m : Memory α) (a : Nat) (v : α) (b : Nat) :
    Memory.lookup (Memory.insert m a v) b = if b = a then some v else Memory.lookup m b := by
  induction m with
  | nil => simp [Memory.insert, Memory.lookup]
  | cons c m ih =>
    obtain ⟨d, w⟩ := c
    simp only [Memory.insert]
    split
    · simp [Memory.lookup]
    · split
      · rename_i h
        subst h
        by_cases h : b = a <;> simp [Memory.lookup, h]
      · by_cases h : b = d
        · have : ¬ b = a := by omega
          simp [Memory.lookup, h]
          omega
        · simp [Memory.lookup, h, ih]

theorem Memory.lookup_erase (m : Memory α) (a b : Nat) :
    Memory.lookup (Memory.erase m a) b = if b = a then none else Memory.lookup m b := by
  induction m with
  | nil => simp [Memory.erase, Memory.lookup]
  | cons c m ih =>
    obtain ⟨d, w⟩ := c
    simp only [Memory.erase] at ih
    by_cases hd : d = a
    · subst hd
      by_cases h : b = d <;> simp_all [Memory.erase, Memory.lookup]
    · by_cases h : b = d
      · simp [Memory.erase, Memory.lookup, hd, h]
      · simp [Memory.erase, Memory.lookup, hd, h, ih]

/-- A read after a write: the written value at its address, the old value elsewhere. -/
theorem Memory.read_write [DecidableEq α] (u : Option α) (f : α) (m : Memory α) (a : Nat) (v : α)
    (b : Nat) :
    Memory.read u f (Memory.write u m a v) b = if b = a then v else Memory.read u f m b := by
  by_cases h : u = some v
  · simp only [Memory.write, Memory.read, if_pos h, Memory.lookup_erase]
    by_cases hb : b = a <;> simp [hb, h]
  · simp only [Memory.write, Memory.read, if_neg h, Memory.lookup_insert]
    by_cases hb : b = a <;> simp [hb]

/-- An address outside a list of rising addresses has nothing listed. -/
theorem Memory.lookup_eq_none {m : Memory α} {a : Nat} (h : ∀ c ∈ m, c.1 ≠ a) :
    Memory.lookup m a = none := by
  induction m with
  | nil => rfl
  | cons c m ih =>
    have := h c (by simp)
    simp [Memory.lookup, Ne.symm this, ih (fun d hd => h d (by simp [hd]))]

theorem Memory.mem_insert {m : Memory α} {a : Nat} {v : α} {c : Nat × α}
    (h : c ∈ Memory.insert m a v) : c = (a, v) ∨ c ∈ m := by
  induction m with
  | nil => simpa [Memory.insert] using h
  | cons d m ih =>
    simp only [Memory.insert] at h
    split at h
    · simpa using h
    · split at h
      · rcases List.mem_cons.mp h with h | h <;> simp [h]
      · rcases List.mem_cons.mp h with h | h
        · simp [h]
        · rcases ih h with h | h <;> simp [h]

theorem Memory.insert_rising {m : Memory α} (h : m.Pairwise (fun c d => c.1 < d.1)) (a : Nat)
    (v : α) : (Memory.insert m a v).Pairwise (fun c d => c.1 < d.1) := by
  induction m with
  | nil => simp [Memory.insert]
  | cons d m ih =>
    obtain ⟨hd, hm⟩ := List.pairwise_cons.mp h
    simp only [Memory.insert]
    split
    · rename_i hlt
      refine List.pairwise_cons.mpr ⟨fun c hc => ?_, h⟩
      rcases List.mem_cons.mp hc with rfl | hc
      · exact hlt
      · exact Nat.lt_trans hlt (hd c hc)
    · split
      · rename_i heq
        exact List.pairwise_cons.mpr ⟨fun c hc => by simpa [heq] using hd c hc, hm⟩
      · refine List.pairwise_cons.mpr ⟨fun c hc => ?_, ih hm⟩
        rcases Memory.mem_insert hc with rfl | hc
        · simp only
          omega
        · exact hd c hc

/-- Every write inside the space keeps the canonical form. -/
theorem Memory.write_wf [DecidableEq α] {u : Option α} {size : Nat} {m : Memory α}
    (h : Memory.wf u size m) {a : Nat} (ha : a < size) (v : α) :
    Memory.wf u size (Memory.write u m a v) := by
  unfold Memory.write
  split
  · exact ⟨h.1.filter _, fun c hc => h.2 c (List.mem_filter.mp hc).1⟩
  · rename_i hv
    refine ⟨Memory.insert_rising h.1 a v, fun c hc => ?_⟩
    rcases Memory.mem_insert hc with rfl | hc
    · exact ⟨ha, hv⟩
    · exact h.2 c hc

theorem Memory.nil_wf [DecidableEq α] (u : Option α) (size : Nat) :
    Memory.wf u size ([] : Memory α) :=
  ⟨List.Pairwise.nil, by simp⟩

/-- Listing a value that is already listed changes nothing. -/
theorem Memory.insert_of_lookup {m : Memory α} (h : m.Pairwise (fun c d => c.1 < d.1)) {a : Nat}
    {v : α} (ha : Memory.lookup m a = some v) : Memory.insert m a v = m := by
  induction m with
  | nil => simp [Memory.lookup] at ha
  | cons d m ih =>
    obtain ⟨b, w⟩ := d
    obtain ⟨hd, hm⟩ := List.pairwise_cons.mp h
    simp only [Memory.lookup] at ha
    simp only [Memory.insert]
    split at ha
    · rename_i hab
      subst hab
      simp_all
    · rename_i hab
      have hlt : ¬ a < b := by
        intro hlt
        have : Memory.lookup m a = none :=
          Memory.lookup_eq_none (fun c hc => by have := hd c hc; simp only at this; omega)
        simp [this] at ha
      simp [hlt, hab, ih hm ha]

end Lists

/-! ### One cell of each memory -/

variable (s : State)

@[simp] theorem readPix_writePix (a : Nat) (v : Byte) (b : Nat) :
    readPix (writePix s a v) b = if b = a then v else readPix s b :=
  Memory.read_write _ _ _ _ _ _

@[simp] theorem readMsg_writeMsg (a : Nat) (v : Byte) (b : Nat) :
    readMsg (writeMsg s a v) b = if b = a then v else readMsg s b :=
  Memory.read_write _ _ _ _ _ _

@[simp] theorem readMrkr_writeMrkr (a : Nat) (v : Bit) (b : Nat) :
    readMrkr (writeMrkr s a v) b = if b = a then v else readMrkr s b :=
  Memory.read_write _ _ _ _ _ _

@[simp] theorem readBit_writeBit (a : Nat) (v : Bit) (b : Nat) :
    readBit (writeBit s a v) b = if b = a then v else readBit s b :=
  Memory.read_write _ _ _ _ _ _

@[simp] theorem readOut_writeOut (a : Nat) (v : Byte) (b : Nat) :
    readOut (writeOut s a v) b = if b = a then v else readOut s b :=
  Memory.read_write _ _ _ _ _ _

end Sys2Proof.Machine
end

