-- ==== Sys2Proof/Laws/Cells.lean ====
section
/-! SUPPORT. Runs of cells: what `writeBits` and `writeOuts` leave where, and what reading a run
back gives. -/

namespace Sys2Proof.Machine

variable (s : State)

@[simp] theorem readBits_length (a n : Nat) : (readBits s a n).length = n := by simp [readBits]

@[simp] theorem markerSeq_length : (markerSeq s).length = mlenOf s := by simp [markerSeq]

@[simp] theorem msgSeq_length : (msgSeq s).length = msgLenOf s := by simp [msgSeq]

@[simp] theorem bitsSeq_length : (bitsSeq s).length = bitsLenOf s := by simp [bitsSeq]

@[simp] theorem outSeq_length : (outSeq s).length = outLenOf s := by simp [outSeq]

theorem readBits_getElem (a n i : Nat) (h : i < (readBits s a n).length) :
    (readBits s a n)[i] = readBit s (a + i) := by simp [readBits]

/-- A shorter run is a prefix of a longer one. -/
theorem readBits_take (a n k : Nat) (h : k ≤ n) : (readBits s a n).take k = readBits s a k := by
  apply List.ext_getElem
  · simp [h]
  · intro i h1 h2
    simp [readBits]

/-- The end of a run is the run that starts further on. -/
theorem readBits_drop (a n k : Nat) : (readBits s a n).drop k = readBits s (a + k) (n - k) := by
  apply List.ext_getElem
  · simp
  · intro i h1 h2
    simp [readBits, Nat.add_assoc]

/-- Two states with equal cells read equal runs. -/
theorem readBits_congr {t : State} {a n : Nat}
    (h : ∀ i, a ≤ i → i < a + n → readBit t i = readBit s i) : readBits t a n = readBits s a n := by
  apply List.ext_getElem
  · simp
  · intro i h1 h2
    simp only [readBits_length] at h1
    simp [readBits, h (a + i) (by omega) (by omega)]

/-! ### `writeBits` -/

/-- `writeBits` changes `BITS` only. -/
theorem writeBits_frame (a : Nat) (l : List Bit) :
    writeBits s a l = { s with bits := (writeBits s a l).bits } := by
  induction l generalizing s a with
  | nil => rfl
  | cons b l ih =>
    show writeBits (writeBit s a b) (a + 1) l = _
    rw [ih]
    rfl

/-- A cell outside the run keeps its bit. -/
theorem readBit_writeBits_outside (a : Nat) (l : List Bit) (i : Nat)
    (h : i < a ∨ a + l.length ≤ i) : readBit (writeBits s a l) i = readBit s i := by
  induction l generalizing s a with
  | nil => rfl
  | cons b l ih =>
    simp only [List.length_cons] at h
    show readBit (writeBits (writeBit s a b) (a + 1) l) i = _
    rw [ih (writeBit s a b) (a + 1) (by omega), readBit_writeBit, if_neg (by omega)]

/-- A cell inside the run holds its element. -/
theorem readBit_writeBits_inside (a : Nat) (l : List Bit) (i : Nat) (h : i < l.length) :
    readBit (writeBits s a l) (a + i) = l[i] := by
  induction l generalizing s a i with
  | nil => simp at h
  | cons b l ih =>
    show readBit (writeBits (writeBit s a b) (a + 1) l) (a + i) = _
    cases i with
    | zero =>
      rw [readBit_writeBits_outside _ _ _ _ (by omega)]
      simp
    | succ i =>
      have := ih (writeBit s a b) (a + 1) i (by simpa using h)
      rw [show a + (i + 1) = a + 1 + i by omega, this]
      rfl

/-- Reading back the run just written. -/
theorem readBits_writeBits (a : Nat) (l : List Bit) :
    readBits (writeBits s a l) a l.length = l := by
  apply List.ext_getElem
  · simp
  · intro i h1 h2
    rw [readBits_getElem, readBit_writeBits_inside _ _ _ _ h2]

/-- Writing two runs in a row is writing their concatenation. -/
theorem writeBits_append (a : Nat) (l k : List Bit) :
    writeBits s a (l ++ k) = writeBits (writeBits s a l) (a + l.length) k := by
  induction l generalizing s a with
  | nil => simp [writeBits]
  | cons b l ih =>
    show writeBits (writeBit s a b) (a + 1) (l ++ k) = _
    rw [ih]
    simp [writeBits, Nat.add_assoc, Nat.add_comm 1]

/-- A run inside the space keeps `BITS` canonical. -/
theorem writeBits_wf (size a : Nat) (l : List Bit) (hs : Memory.wf unlistedBit size s.bits)
    (ha : a + l.length ≤ size) : Memory.wf unlistedBit size (writeBits s a l).bits := by
  induction l generalizing s a with
  | nil => exact hs
  | cons b l ih =>
    simp only [List.length_cons] at ha
    exact ih (writeBit s a b) (a + 1) (Memory.write_wf hs (by omega) b) (by omega)

/-! ### `writeOuts` -/

/-- `writeOuts` changes `OUT` only. -/
theorem writeOuts_frame (a : Nat) (l : List Byte) :
    writeOuts s a l = { s with out := (writeOuts s a l).out } := by
  induction l generalizing s a with
  | nil => rfl
  | cons b l ih =>
    show writeOuts (writeOut s a b) (a + 1) l = _
    rw [ih]
    rfl

/-- A cell outside the run keeps its byte. -/
theorem readOut_writeOuts_outside (a : Nat) (l : List Byte) (i : Nat)
    (h : i < a ∨ a + l.length ≤ i) : readOut (writeOuts s a l) i = readOut s i := by
  induction l generalizing s a with
  | nil => rfl
  | cons b l ih =>
    simp only [List.length_cons] at h
    show readOut (writeOuts (writeOut s a b) (a + 1) l) i = _
    rw [ih (writeOut s a b) (a + 1) (by omega), readOut_writeOut, if_neg (by omega)]

/-- A cell inside the run holds its element. -/
theorem readOut_writeOuts_inside (a : Nat) (l : List Byte) (i : Nat) (h : i < l.length) :
    readOut (writeOuts s a l) (a + i) = l[i] := by
  induction l generalizing s a i with
  | nil => simp at h
  | cons b l ih =>
    show readOut (writeOuts (writeOut s a b) (a + 1) l) (a + i) = _
    cases i with
    | zero =>
      rw [readOut_writeOuts_outside _ _ _ _ (by omega)]
      simp
    | succ i =>
      have := ih (writeOut s a b) (a + 1) i (by simpa using h)
      rw [show a + (i + 1) = a + 1 + i by omega, this]
      rfl

/-- A run inside the space keeps `OUT` canonical. -/
theorem writeOuts_wf (size a : Nat) (l : List Byte) (hs : Memory.wf unlistedByte size s.out)
    (ha : a + l.length ≤ size) : Memory.wf unlistedByte size (writeOuts s a l).out := by
  induction l generalizing s a with
  | nil => exact hs
  | cons b l ih =>
    simp only [List.length_cons] at ha
    exact ih (writeOut s a b) (a + 1) (Memory.write_wf hs (by omega) b) (by omega)

/-! ### Fields after `writeBits` and `writeOuts` -/

@[simp] theorem writeBits_regs (a : Nat) (l : List Bit) :
    (writeBits s a l).regs = s.regs := by
  rw [writeBits_frame]

@[simp] theorem writeBits_pix (a : Nat) (l : List Bit) :
    (writeBits s a l).pix = s.pix := by
  rw [writeBits_frame]

@[simp] theorem writeBits_msg (a : Nat) (l : List Bit) :
    (writeBits s a l).msg = s.msg := by
  rw [writeBits_frame]

@[simp] theorem writeBits_mrkr (a : Nat) (l : List Bit) :
    (writeBits s a l).mrkr = s.mrkr := by
  rw [writeBits_frame]

@[simp] theorem writeBits_out (a : Nat) (l : List Bit) :
    (writeBits s a l).out = s.out := by
  rw [writeBits_frame]

@[simp] theorem writeBits_sizes (a : Nat) (l : List Bit) :
    (writeBits s a l).sizes = s.sizes := by
  rw [writeBits_frame]

@[simp] theorem writeBits_resets (a : Nat) (l : List Bit) :
    (writeBits s a l).resets = s.resets := by
  rw [writeBits_frame]

@[simp] theorem writeBits_script (a : Nat) (l : List Bit) :
    (writeBits s a l).script = s.script := by
  rw [writeBits_frame]

@[simp] theorem writeBits_reads (a : Nat) (l : List Bit) :
    (writeBits s a l).reads = s.reads := by
  rw [writeBits_frame]

@[simp] theorem widthOf_writeBits (a : Nat) (l : List Bit) :
    widthOf (writeBits s a l) = widthOf s := by
  rw [writeBits_frame]; rfl

@[simp] theorem heightOf_writeBits (a : Nat) (l : List Bit) :
    heightOf (writeBits s a l) = heightOf s := by
  rw [writeBits_frame]; rfl

@[simp] theorem nchOf_writeBits (a : Nat) (l : List Bit) :
    nchOf (writeBits s a l) = nchOf s := by
  rw [writeBits_frame]; rfl

@[simp] theorem chselOf_writeBits (a : Nat) (l : List Bit) :
    chselOf (writeBits s a l) = chselOf s := by
  rw [writeBits_frame]; rfl

@[simp] theorem mlenOf_writeBits (a : Nat) (l : List Bit) :
    mlenOf (writeBits s a l) = mlenOf s := by
  rw [writeBits_frame]; rfl

@[simp] theorem msgLenOf_writeBits (a : Nat) (l : List Bit) :
    msgLenOf (writeBits s a l) = msgLenOf s := by
  rw [writeBits_frame]; rfl

@[simp] theorem bitsLenOf_writeBits (a : Nat) (l : List Bit) :
    bitsLenOf (writeBits s a l) = bitsLenOf s := by
  rw [writeBits_frame]; rfl

@[simp] theorem outLenOf_writeBits (a : Nat) (l : List Bit) :
    outLenOf (writeBits s a l) = outLenOf s := by
  rw [writeBits_frame]; rfl

@[simp] theorem curOf_writeBits (a : Nat) (l : List Bit) :
    curOf (writeBits s a l) = curOf s := by
  rw [writeBits_frame]; rfl

@[simp] theorem capacityOf_writeBits (a : Nat) (l : List Bit) :
    capacityOf (writeBits s a l) = capacityOf s := by
  rw [writeBits_frame]; rfl

@[simp] theorem readPix_writeBits (a : Nat) (l : List Bit) (i : Nat) :
    readPix (writeBits s a l) i = readPix s i := by
  rw [writeBits_frame]; rfl

@[simp] theorem readMsg_writeBits (a : Nat) (l : List Bit) (i : Nat) :
    readMsg (writeBits s a l) i = readMsg s i := by
  rw [writeBits_frame]; rfl

@[simp] theorem readMrkr_writeBits (a : Nat) (l : List Bit) (i : Nat) :
    readMrkr (writeBits s a l) i = readMrkr s i := by
  rw [writeBits_frame]; rfl

@[simp] theorem readOut_writeBits (a : Nat) (l : List Bit) (i : Nat) :
    readOut (writeBits s a l) i = readOut s i := by
  rw [writeBits_frame]; rfl

@[simp] theorem designatedCell_writeBits (a : Nat) (l : List Bit) (i : Nat) :
    designatedCell (writeBits s a l) i = designatedCell s i := by
  rw [writeBits_frame]; rfl

@[simp] theorem markerSeq_writeBits (a : Nat) (l : List Bit) :
    markerSeq (writeBits s a l) = markerSeq s := by
  rw [writeBits_frame]; rfl

@[simp] theorem msgSeq_writeBits (a : Nat) (l : List Bit) :
    msgSeq (writeBits s a l) = msgSeq s := by
  rw [writeBits_frame]; rfl

@[simp] theorem writeOuts_regs (a : Nat) (l : List Byte) :
    (writeOuts s a l).regs = s.regs := by
  rw [writeOuts_frame]

@[simp] theorem writeOuts_pix (a : Nat) (l : List Byte) :
    (writeOuts s a l).pix = s.pix := by
  rw [writeOuts_frame]

@[simp] theorem writeOuts_msg (a : Nat) (l : List Byte) :
    (writeOuts s a l).msg = s.msg := by
  rw [writeOuts_frame]

@[simp] theorem writeOuts_mrkr (a : Nat) (l : List Byte) :
    (writeOuts s a l).mrkr = s.mrkr := by
  rw [writeOuts_frame]

@[simp] theorem writeOuts_bits (a : Nat) (l : List Byte) :
    (writeOuts s a l).bits = s.bits := by
  rw [writeOuts_frame]

@[simp] theorem writeOuts_sizes (a : Nat) (l : List Byte) :
    (writeOuts s a l).sizes = s.sizes := by
  rw [writeOuts_frame]

@[simp] theorem writeOuts_resets (a : Nat) (l : List Byte) :
    (writeOuts s a l).resets = s.resets := by
  rw [writeOuts_frame]

@[simp] theorem writeOuts_script (a : Nat) (l : List Byte) :
    (writeOuts s a l).script = s.script := by
  rw [writeOuts_frame]

@[simp] theorem writeOuts_reads (a : Nat) (l : List Byte) :
    (writeOuts s a l).reads = s.reads := by
  rw [writeOuts_frame]

@[simp] theorem widthOf_writeOuts (a : Nat) (l : List Byte) :
    widthOf (writeOuts s a l) = widthOf s := by
  rw [writeOuts_frame]; rfl

@[simp] theorem heightOf_writeOuts (a : Nat) (l : List Byte) :
    heightOf (writeOuts s a l) = heightOf s := by
  rw [writeOuts_frame]; rfl

@[simp] theorem nchOf_writeOuts (a : Nat) (l : List Byte) :
    nchOf (writeOuts s a l) = nchOf s := by
  rw [writeOuts_frame]; rfl

@[simp] theorem chselOf_writeOuts (a : Nat) (l : List Byte) :
    chselOf (writeOuts s a l) = chselOf s := by
  rw [writeOuts_frame]; rfl

@[simp] theorem mlenOf_writeOuts (a : Nat) (l : List Byte) :
    mlenOf (writeOuts s a l) = mlenOf s := by
  rw [writeOuts_frame]; rfl

@[simp] theorem msgLenOf_writeOuts (a : Nat) (l : List Byte) :
    msgLenOf (writeOuts s a l) = msgLenOf s := by
  rw [writeOuts_frame]; rfl

@[simp] theorem bitsLenOf_writeOuts (a : Nat) (l : List Byte) :
    bitsLenOf (writeOuts s a l) = bitsLenOf s := by
  rw [writeOuts_frame]; rfl

@[simp] theorem outLenOf_writeOuts (a : Nat) (l : List Byte) :
    outLenOf (writeOuts s a l) = outLenOf s := by
  rw [writeOuts_frame]; rfl

@[simp] theorem curOf_writeOuts (a : Nat) (l : List Byte) :
    curOf (writeOuts s a l) = curOf s := by
  rw [writeOuts_frame]; rfl

@[simp] theorem capacityOf_writeOuts (a : Nat) (l : List Byte) :
    capacityOf (writeOuts s a l) = capacityOf s := by
  rw [writeOuts_frame]; rfl

@[simp] theorem readPix_writeOuts (a : Nat) (l : List Byte) (i : Nat) :
    readPix (writeOuts s a l) i = readPix s i := by
  rw [writeOuts_frame]; rfl

@[simp] theorem readMsg_writeOuts (a : Nat) (l : List Byte) (i : Nat) :
    readMsg (writeOuts s a l) i = readMsg s i := by
  rw [writeOuts_frame]; rfl

@[simp] theorem readMrkr_writeOuts (a : Nat) (l : List Byte) (i : Nat) :
    readMrkr (writeOuts s a l) i = readMrkr s i := by
  rw [writeOuts_frame]; rfl

@[simp] theorem readBit_writeOuts (a : Nat) (l : List Byte) (i : Nat) :
    readBit (writeOuts s a l) i = readBit s i := by
  rw [writeOuts_frame]; rfl

@[simp] theorem designatedCell_writeOuts (a : Nat) (l : List Byte) (i : Nat) :
    designatedCell (writeOuts s a l) i = designatedCell s i := by
  rw [writeOuts_frame]; rfl

@[simp] theorem markerSeq_writeOuts (a : Nat) (l : List Byte) :
    markerSeq (writeOuts s a l) = markerSeq s := by
  rw [writeOuts_frame]; rfl

@[simp] theorem msgSeq_writeOuts (a : Nat) (l : List Byte) :
    msgSeq (writeOuts s a l) = msgSeq s := by
  rw [writeOuts_frame]; rfl

end Sys2Proof.Machine
end

