-- ==== Sys2Proof/Laws/Codec.lean ====
section
/-! SUPPORT. Small lemmas of the two pure codec functions. -/

namespace Sys2Proof.Machine

@[simp] theorem byteBits_length (v : Byte) : (byteBits v).length = 8 := by simp [byteBits]

@[simp] theorem textToBits_nil : textToBits [] = [] := rfl

@[simp] theorem textToBits_cons (v : Byte) (m : List Byte) :
    textToBits (v :: m) = byteBits v ++ textToBits m := rfl

@[simp] theorem textToBits_length (m : List Byte) : (textToBits m).length = 8 * m.length := by
  induction m with
  | nil => rfl
  | cons v m ih => simp [ih]; omega

/-- The eight bits of a byte, written out. -/
theorem byteBits_eq (v : Byte) :
    byteBits v = [v.getLsbD 7, v.getLsbD 6, v.getLsbD 5, v.getLsbD 4, v.getLsbD 3, v.getLsbD 2,
      v.getLsbD 1, v.getLsbD 0] := rfl

/-- Eight bits make back the byte they came from. -/
theorem byteOfBits_byteBits (v : Byte) : byteOfBits (byteBits v) = v := by
  revert v
  decide +kernel

/-- A byte's bits make back the eight bits it was made of. -/
theorem byteBits_byteOfBits (b0 b1 b2 b3 b4 b5 b6 b7 : Bit) :
    byteBits (byteOfBits [b0, b1, b2, b3, b4, b5, b6, b7]) = [b0, b1, b2, b3, b4, b5, b6, b7] := by
  revert b0 b1 b2 b3 b4 b5 b6 b7
  decide +kernel

/-- A full group of bits in front gives one code unit in front. -/
theorem bitsToText_byteBits_append (v : Byte) (s : List Bit) :
    bitsToText (byteBits v ++ s) = v :: bitsToText s := by
  have h := byteOfBits_byteBits v
  rw [byteBits_eq] at h ⊢
  simp only [List.cons_append, List.nil_append, bitsToText, h]

theorem bitsToText_length (s : List Bit) : (bitsToText s).length = s.length / 8 := by
  induction s using bitsToText.induct with
  | case1 b0 b1 b2 b3 b4 b5 b6 b7 s ih => simp [bitsToText, ih]; omega
  | case2 s h =>
    have : s.length < 8 := by
      rcases s with _ | ⟨_, _ | ⟨_, _ | ⟨_, _ | ⟨_, _ | ⟨_, _ | ⟨_, _ | ⟨_, _ | ⟨_, _⟩⟩⟩⟩⟩⟩⟩⟩
      all_goals first | simp; done | exact absurd rfl (h _ _ _ _ _ _ _ _ _)
    unfold bitsToText
    split
    · simp at this
      omega
    · simp
      omega

end Sys2Proof.Machine
end

