-- ==== Sys2Proof/Laws/PerInstr.lean ====
section
/-! SUPPORT. Statements about every command as syntax, one lemma per constructor. -/

namespace Sys2Proof.Laws.EncodedWord

/-- A command's word is legal: bits 31 to 4 are 0 and the opcode is one of the eight (R91, R92). -/
def Statement (i : Sys2Proof.Instr) : Prop :=
  Sys2Proof.wordWellFormed (Sys2Proof.encode i) = true ∧ Sys2Proof.Instr.wellFormed i = true

theorem t2b : Statement .t2b := ⟨by decide, rfl⟩

theorem b2t : Statement .b2t := ⟨by decide, rfl⟩

theorem mrk : Statement .mrk := ⟨by decide, rfl⟩

theorem cap : Statement .cap := ⟨by decide, rfl⟩

theorem emb : Statement .emb := ⟨by decide, rfl⟩

theorem enc : Statement .enc := ⟨by decide, rfl⟩

theorem ext : Statement .ext := ⟨by decide, rfl⟩

theorem dec : Statement .dec := ⟨by decide, rfl⟩

end Sys2Proof.Laws.EncodedWord
end

