-- ==== Sys2Proof/Laws/Scan.lean ====
section
/-! SUPPORT. What the two scans do: the encoder's (each visited pixel's designated cell, everything
else unchanged), the decoder's (stop at the first match, or exhaust the grid), and what `MarkerMatch`
and `FirstMatch` mean. -/

namespace Sys2Proof.Machine

/-! ### The encoder's scan -/

/-- The scan changes `PIX` and `CUR` only. -/
theorem embedScan_frame (k p : Nat) (s : State) :
    embedScan k p s =
      { s with pix := (embedScan k p s).pix,
               regs := { s.regs with cur := (embedScan k p s).regs.cur } } := by
  induction k generalizing p s with
  | zero => rfl
  | succ k ih =>
    show embedScan k (p + 1) (embedStep s p) = _
    rw [ih]
    rfl

/-- After `k` steps from pixel `p` with the cursor at `p`, the cursor is at `p + k`. -/
theorem embedScan_cur (k p : Nat) (s : State) (h : s.regs.cur = BitVec.ofNat 32 p) :
    (embedScan k p s).regs.cur = BitVec.ofNat 32 (p + k) := by
  induction k generalizing p s with
  | zero => exact h
  | succ k ih =>
    show (embedScan k (p + 1) (embedStep s p)).regs.cur = _
    rw [ih (p + 1) (embedStep s p) rfl, show p + 1 + k = p + (k + 1) by omega]

/-- Different pixels have different designated cells. -/
theorem designatedCell_inj {s : State} (hN : 0 < nchOf s) {p q : Nat}
    (h : designatedCell s p = designatedCell s q) : p = q := by
  simp only [designatedCell, pixAddr, Nat.add_right_cancel_iff] at h
  exact Nat.eq_of_mul_eq_mul_right hN h

theorem embedStep_designatedCell (s : State) (p q : Nat) :
    designatedCell (embedStep s p) q = designatedCell s q := rfl

theorem readBit_embedStep (s : State) (p i : Nat) :
    readBit (embedStep s p) i = readBit s i := rfl

theorem readPix_embedStep (s : State) (p a : Nat) :
    readPix (embedStep s p) a =
      if a = designatedCell s p then embedBit (readPix s (designatedCell s p)) (readBit s p)
      else readPix s a := by
  simp [embedStep]

/-- A cell that is no visited pixel's designated cell keeps its byte. -/
theorem readPix_embedScan_outside (k p : Nat) (s : State) (a : Nat)
    (h : ∀ q, p ≤ q → q < p + k → a ≠ designatedCell s q) :
    readPix (embedScan k p s) a = readPix s a := by
  induction k generalizing p s with
  | zero => rfl
  | succ k ih =>
    show readPix (embedScan k (p + 1) (embedStep s p)) a = _
    rw [ih (p + 1) (embedStep s p) (fun q hq hq' => h q (by omega) (by omega)), readPix_embedStep,
      if_neg (h p (Nat.le_refl p) (by omega))]

/-- The designated cell of a visited pixel carries that pixel's bit. -/
theorem readPix_embedScan_inside (k p : Nat) (s : State) (hN : 0 < nchOf s) (q : Nat) (hq : p ≤ q)
    (hq' : q < p + k) :
    readPix (embedScan k p s) (designatedCell s q) =
      embedBit (readPix s (designatedCell s q)) (readBit s q) := by
  induction k generalizing p s with
  | zero => omega
  | succ k ih =>
    show readPix (embedScan k (p + 1) (embedStep s p)) (designatedCell s q) = _
    by_cases hpq : q = p
    · subst hpq
      rw [readPix_embedScan_outside, readPix_embedStep, if_pos rfl]
      intro r hr _ h
      have := designatedCell_inj (s := s) hN h
      omega
    · have := ih (p + 1) (embedStep s p) hN (by omega) (by omega)
      rw [embedStep_designatedCell, readPix_embedStep, readBit_embedStep] at this
      rw [this, if_neg (fun h => hpq (designatedCell_inj hN h))]

/-- A scan whose pixels all lie in the space keeps `PIX` canonical. -/
theorem embedScan_wf (size k p : Nat) (s : State) (hs : Memory.wf unlistedByte size s.pix)
    (h : ∀ q, p ≤ q → q < p + k → designatedCell s q < size) :
    Memory.wf unlistedByte size (embedScan k p s).pix := by
  induction k generalizing p s with
  | zero => exact hs
  | succ k ih =>
    refine ih (p + 1) (embedStep s p) ?_ (fun q hq hq' => h q (by omega) (by omega))
    exact Memory.write_wf hs (h p (Nat.le_refl p) (by omega)) _

/-! ### Fields after the encoder's scan -/

@[simp] theorem embedScan_msg (k p : Nat) (s : State) :
    (embedScan k p s).msg = s.msg := by
  rw [embedScan_frame]

@[simp] theorem embedScan_mrkr (k p : Nat) (s : State) :
    (embedScan k p s).mrkr = s.mrkr := by
  rw [embedScan_frame]

@[simp] theorem embedScan_bits (k p : Nat) (s : State) :
    (embedScan k p s).bits = s.bits := by
  rw [embedScan_frame]

@[simp] theorem embedScan_out (k p : Nat) (s : State) :
    (embedScan k p s).out = s.out := by
  rw [embedScan_frame]

@[simp] theorem embedScan_sizes (k p : Nat) (s : State) :
    (embedScan k p s).sizes = s.sizes := by
  rw [embedScan_frame]

@[simp] theorem embedScan_resets (k p : Nat) (s : State) :
    (embedScan k p s).resets = s.resets := by
  rw [embedScan_frame]

@[simp] theorem embedScan_script (k p : Nat) (s : State) :
    (embedScan k p s).script = s.script := by
  rw [embedScan_frame]

@[simp] theorem embedScan_reads (k p : Nat) (s : State) :
    (embedScan k p s).reads = s.reads := by
  rw [embedScan_frame]

@[simp] theorem widthOf_embedScan (k p : Nat) (s : State) :
    widthOf (embedScan k p s) = widthOf s := by
  rw [embedScan_frame]; rfl

@[simp] theorem heightOf_embedScan (k p : Nat) (s : State) :
    heightOf (embedScan k p s) = heightOf s := by
  rw [embedScan_frame]; rfl

@[simp] theorem nchOf_embedScan (k p : Nat) (s : State) :
    nchOf (embedScan k p s) = nchOf s := by
  rw [embedScan_frame]; rfl

@[simp] theorem chselOf_embedScan (k p : Nat) (s : State) :
    chselOf (embedScan k p s) = chselOf s := by
  rw [embedScan_frame]; rfl

@[simp] theorem mlenOf_embedScan (k p : Nat) (s : State) :
    mlenOf (embedScan k p s) = mlenOf s := by
  rw [embedScan_frame]; rfl

@[simp] theorem msgLenOf_embedScan (k p : Nat) (s : State) :
    msgLenOf (embedScan k p s) = msgLenOf s := by
  rw [embedScan_frame]; rfl

@[simp] theorem bitsLenOf_embedScan (k p : Nat) (s : State) :
    bitsLenOf (embedScan k p s) = bitsLenOf s := by
  rw [embedScan_frame]; rfl

@[simp] theorem outLenOf_embedScan (k p : Nat) (s : State) :
    outLenOf (embedScan k p s) = outLenOf s := by
  rw [embedScan_frame]; rfl

@[simp] theorem capacityOf_embedScan (k p : Nat) (s : State) :
    capacityOf (embedScan k p s) = capacityOf s := by
  rw [embedScan_frame]; rfl

@[simp] theorem readMsg_embedScan (k p : Nat) (s : State) (i : Nat) :
    readMsg (embedScan k p s) i = readMsg s i := by
  rw [embedScan_frame]; rfl

@[simp] theorem readMrkr_embedScan (k p : Nat) (s : State) (i : Nat) :
    readMrkr (embedScan k p s) i = readMrkr s i := by
  rw [embedScan_frame]; rfl

@[simp] theorem readBit_embedScan (k p : Nat) (s : State) (i : Nat) :
    readBit (embedScan k p s) i = readBit s i := by
  rw [embedScan_frame]; rfl

@[simp] theorem readOut_embedScan (k p : Nat) (s : State) (i : Nat) :
    readOut (embedScan k p s) i = readOut s i := by
  rw [embedScan_frame]; rfl

@[simp] theorem designatedCell_embedScan (k p : Nat) (s : State) (i : Nat) :
    designatedCell (embedScan k p s) i = designatedCell s i := by
  rw [embedScan_frame]; rfl

@[simp] theorem markerSeq_embedScan (k p : Nat) (s : State) :
    markerSeq (embedScan k p s) = markerSeq s := by
  rw [embedScan_frame]; rfl

@[simp] theorem msgSeq_embedScan (k p : Nat) (s : State) :
    msgSeq (embedScan k p s) = msgSeq s := by
  rw [embedScan_frame]; rfl

/-! ### `MarkerMatch` and `FirstMatch` -/

/-- `MarkerMatch` says that the marker is a suffix. -/
theorem markerMatch_iff (mk s : List Bit) :
    markerMatch mk s = true ↔ mk.length ≤ s.length ∧ s.drop (s.length - mk.length) = mk := by
  simp [markerMatch]

/-- The first match is a match, and nothing shorter is. -/
theorem firstMatch_some {mk s : List Bit} {f : Nat} (h : firstMatch mk s = some f) :
    mk.length ≤ f ∧ f ≤ s.length ∧ markerMatch mk (s.take f) = true ∧
      ∀ n, n < f → markerMatch mk (s.take n) = false := by
  unfold firstMatch at h
  rw [List.find?_range_eq_some] at h
  obtain ⟨h1, h2, h3⟩ := h
  simp only [Bool.and_eq_true, decide_eq_true_eq] at h1
  refine ⟨h1.1, by simpa [Nat.lt_succ_iff] using h2, h1.2, fun n hn => ?_⟩
  have := h3 n hn
  by_contra hm
  have hm : markerMatch mk (s.take n) = true := by simpa using hm
  have := (markerMatch_iff _ _).mp hm
  simp_all
  omega

/-- The conditions under which a position is the first match. -/
theorem firstMatch_eq_some {mk s : List Bit} {f : Nat} (h1 : f ≤ s.length)
    (h2 : markerMatch mk (s.take f) = true)
    (h3 : ∀ n, n < f → markerMatch mk (s.take n) = false) : firstMatch mk s = some f := by
  unfold firstMatch
  rw [List.find?_range_eq_some]
  have hM := ((markerMatch_iff _ _).mp h2).1
  refine ⟨?_, by simp; omega, fun n hn => by simp [h3 n hn]⟩
  simp only [List.length_take] at hM
  simp only [h2, Bool.and_true, decide_eq_true_eq]
  omega

/-- There is no first match exactly when no prefix ends with the marker. -/
theorem firstMatch_none {mk s : List Bit} (h : firstMatch mk s = none) (n : Nat)
    (hn : n ≤ s.length) : markerMatch mk (s.take n) = false := by
  unfold firstMatch at h
  rw [List.find?_eq_none] at h
  have := h n (by simp; omega)
  by_contra hm
  have hm : markerMatch mk (s.take n) = true := by simpa using hm
  have := (markerMatch_iff _ _).mp hm
  simp_all

/-! ### The decoder's scan -/

/-- The LSB of the designated channel of pixel `p`. -/
def lsbAt (s : State) (p : Nat) : Bit := extractBit (readPix s (designatedCell s p))

/-- The LSBs of the `k` pixels from `p` on, in scan order. -/
def lsbsFrom (s : State) (p k : Nat) : List Bit := (List.range k).map (fun i => lsbAt s (p + i))

theorem gridLsbs_eq (s : State) : gridLsbs s = lsbsFrom s 0 (capacityOf s) := by
  simp [gridLsbs, lsbsFrom, lsbAt]

@[simp] theorem lsbsFrom_length (s : State) (p k : Nat) : (lsbsFrom s p k).length = k := by
  simp [lsbsFrom]

theorem lsbsFrom_succ (s : State) (p k : Nat) :
    lsbsFrom s p (k + 1) = lsbAt s p :: lsbsFrom s (p + 1) k := by
  apply List.ext_getElem
  · simp
  · intro i h1 h2
    cases i with
    | zero => simp [lsbsFrom]
    | succ i => simp [lsbsFrom, Nat.add_assoc, Nat.add_comm 1]

theorem lsbsFrom_take (s : State) (p k n : Nat) (h : n ≤ k) :
    (lsbsFrom s p k).take n = lsbsFrom s p n := by
  apply List.ext_getElem
  · simp [h]
  · intro i h1 h2
    simp [lsbsFrom]

@[simp] theorem gridLsbs_length (s : State) : (gridLsbs s).length = capacityOf s := by
  simp [gridLsbs]

/-- The state after `k` steps of the scan from pixel `p` without a match. -/
def scanned (s : State) (p k : Nat) : State :=
  { writeBits s p (lsbsFrom s p k) with
    regs := { s.regs with cur := if k = 0 then s.regs.cur else BitVec.ofNat 32 (p + k) } }

/-! ### Fields of `scanned` -/

/-- A scan without a match changes `BITS` and `CUR` only. -/
theorem scanned_frame (s : State) (p k : Nat) :
    scanned s p k =
      { s with bits := (scanned s p k).bits,
               regs := { s.regs with cur := (scanned s p k).regs.cur } } := by
  unfold scanned
  rw [writeBits_frame]

@[simp] theorem scanned_pix (s : State) (p k : Nat) :
    (scanned s p k).pix = s.pix := by
  rw [scanned_frame]

@[simp] theorem scanned_msg (s : State) (p k : Nat) :
    (scanned s p k).msg = s.msg := by
  rw [scanned_frame]

@[simp] theorem scanned_mrkr (s : State) (p k : Nat) :
    (scanned s p k).mrkr = s.mrkr := by
  rw [scanned_frame]

@[simp] theorem scanned_out (s : State) (p k : Nat) :
    (scanned s p k).out = s.out := by
  rw [scanned_frame]

@[simp] theorem scanned_sizes (s : State) (p k : Nat) :
    (scanned s p k).sizes = s.sizes := by
  rw [scanned_frame]

@[simp] theorem scanned_resets (s : State) (p k : Nat) :
    (scanned s p k).resets = s.resets := by
  rw [scanned_frame]

@[simp] theorem scanned_script (s : State) (p k : Nat) :
    (scanned s p k).script = s.script := by
  rw [scanned_frame]

@[simp] theorem scanned_reads (s : State) (p k : Nat) :
    (scanned s p k).reads = s.reads := by
  rw [scanned_frame]

@[simp] theorem widthOf_scanned (s : State) (p k : Nat) :
    widthOf (scanned s p k) = widthOf s := by
  rw [scanned_frame]; rfl

@[simp] theorem heightOf_scanned (s : State) (p k : Nat) :
    heightOf (scanned s p k) = heightOf s := by
  rw [scanned_frame]; rfl

@[simp] theorem nchOf_scanned (s : State) (p k : Nat) :
    nchOf (scanned s p k) = nchOf s := by
  rw [scanned_frame]; rfl

@[simp] theorem chselOf_scanned (s : State) (p k : Nat) :
    chselOf (scanned s p k) = chselOf s := by
  rw [scanned_frame]; rfl

@[simp] theorem mlenOf_scanned (s : State) (p k : Nat) :
    mlenOf (scanned s p k) = mlenOf s := by
  rw [scanned_frame]; rfl

@[simp] theorem msgLenOf_scanned (s : State) (p k : Nat) :
    msgLenOf (scanned s p k) = msgLenOf s := by
  rw [scanned_frame]; rfl

@[simp] theorem bitsLenOf_scanned (s : State) (p k : Nat) :
    bitsLenOf (scanned s p k) = bitsLenOf s := by
  rw [scanned_frame]; rfl

@[simp] theorem outLenOf_scanned (s : State) (p k : Nat) :
    outLenOf (scanned s p k) = outLenOf s := by
  rw [scanned_frame]; rfl

@[simp] theorem capacityOf_scanned (s : State) (p k : Nat) :
    capacityOf (scanned s p k) = capacityOf s := by
  rw [scanned_frame]; rfl

@[simp] theorem readPix_scanned (s : State) (p k : Nat) (i : Nat) :
    readPix (scanned s p k) i = readPix s i := by
  rw [scanned_frame]; rfl

@[simp] theorem readMsg_scanned (s : State) (p k : Nat) (i : Nat) :
    readMsg (scanned s p k) i = readMsg s i := by
  rw [scanned_frame]; rfl

@[simp] theorem readMrkr_scanned (s : State) (p k : Nat) (i : Nat) :
    readMrkr (scanned s p k) i = readMrkr s i := by
  rw [scanned_frame]; rfl

@[simp] theorem readOut_scanned (s : State) (p k : Nat) (i : Nat) :
    readOut (scanned s p k) i = readOut s i := by
  rw [scanned_frame]; rfl

@[simp] theorem designatedCell_scanned (s : State) (p k : Nat) (i : Nat) :
    designatedCell (scanned s p k) i = designatedCell s i := by
  rw [scanned_frame]; rfl

@[simp] theorem markerSeq_scanned (s : State) (p k : Nat) :
    markerSeq (scanned s p k) = markerSeq s := by
  rw [scanned_frame]; rfl

@[simp] theorem msgSeq_scanned (s : State) (p k : Nat) :
    msgSeq (scanned s p k) = msgSeq s := by
  rw [scanned_frame]; rfl

theorem extractStep_eq (s : State) (p : Nat) : extractStep s p = scanned s p 1 := by
  simp only [scanned, lsbsFrom_succ]
  rfl

theorem scanned_zero (s : State) (p : Nat) : scanned s p 0 = s := rfl

theorem scanned_succ (s : State) (p k : Nat) :
    scanned (extractStep s p) (p + 1) k = scanned s p (k + 1) := by
  have e : lsbsFrom (extractStep s p) (p + 1) k = lsbsFrom s (p + 1) k := rfl
  simp only [scanned, e, lsbsFrom_succ, writeBits]
  rw [writeBits_frame (extractStep s p), writeBits_frame (writeBit s p (lsbAt s p))]
  have hb : ∀ (l : List Bit) (q : Nat) (u v : State), u.bits = v.bits →
      (writeBits u q l).bits = (writeBits v q l).bits := by
    intro l
    induction l with
    | nil => intro q u v h; exact h
    | cons b l ih =>
      intro q u v h
      exact ih (q + 1) _ _ (by simp [writeBit, h])
  rw [hb _ _ (extractStep s p) (writeBit s p (lsbAt s p)) rfl]
  cases k with
  | zero => simp [extractStep, writeBit, setCur]
  | succ k =>
    simp only [extractStep, setCur, writeBit, Nat.add_eq_zero_iff, Nat.succ_ne_self]
    simp [Nat.add_assoc, Nat.add_comm 1]

/-- The bits below the scan stay, and the scanned bits are the LSBs. -/
theorem readBits_scanned (s : State) (p k : Nat)
    (h : readBits s 0 p = lsbsFrom s 0 p) : readBits (scanned s p k) 0 (p + k) = lsbsFrom s 0 (p + k) := by
  have hr : ∀ i, readBit (scanned s p k) i = readBit (writeBits s p (lsbsFrom s p k)) i := by
    intro i
    have hres : (writeBits s p (lsbsFrom s p k)).resets = s.resets := by rw [writeBits_frame]
    simp [readBit, scanned]
  apply List.ext_getElem
  · simp
  · intro i h1 h2
    simp only [readBits_length] at h1
    rw [readBits_getElem, hr, Nat.zero_add]
    by_cases hi : i < p
    · rw [readBit_writeBits_outside _ _ _ _ (by omega)]
      have := congrArg (fun l => l[i]?) h
      simpa [readBits, lsbsFrom, hi] using this
    · have := readBit_writeBits_inside s p (lsbsFrom s p k) (i - p) (by simp; omega)
      rw [show p + (i - p) = i by omega] at this
      rw [this]
      simp [lsbsFrom, show p + (i - p) = i by omega]

/-- The cursor after a scan that began at pixel 0 with the cursor at 0. -/
theorem scanned_setCur_cur (s : State) (k : Nat) :
    (scanned (setCur s 0) 0 k).regs.cur = BitVec.ofNat 32 k := by
  by_cases h : k = 0 <;> simp [scanned, h]

/-- A bit cell the scan has not reached keeps its bit. -/
theorem readBit_scanned_outside (s : State) (p k i : Nat) (h : i < p ∨ p + k ≤ i) :
    readBit (scanned s p k) i = readBit s i := by
  have e : readBit (scanned s p k) i = readBit (writeBits s p (lsbsFrom s p k)) i := by
    simp [readBit, scanned]
  rw [e, readBit_writeBits_outside _ _ _ _ (by simpa using h)]

/-- The machine's suffix test is `MarkerMatch` of the bits accumulated so far. -/
theorem matchedAt_eq (s : State) (n : Nat) :
    matchedAt s n = markerMatch (markerSeq s) (readBits s 0 n) := by
  unfold matchedAt markerMatch
  simp only [markerSeq_length, readBits_length]
  by_cases h : mlenOf s ≤ n
  · rw [readBits_drop]
    simp [h, show n - (n - mlenOf s) = mlenOf s by omega]
  · simp [h]

/-- The test after one more pixel is `MarkerMatch` of the LSBs read so far. -/
theorem matchedAt_extractStep (s : State) (p : Nat) (h : readBits s 0 p = lsbsFrom s 0 p) :
    matchedAt (extractStep s p) (p + 1) = markerMatch (markerSeq s) (lsbsFrom s 0 (p + 1)) := by
  rw [matchedAt_eq, extractStep_eq, readBits_scanned s p 1 h]
  rw [← extractStep_eq]
  rfl

/-- The scan stops at the first match. -/
theorem extractScan_stop (k p f : Nat) (s : State) (h : readBits s 0 p = lsbsFrom s 0 p)
    (hp : p < f) (hf : f ≤ p + k)
    (hno : ∀ n, p < n → n < f → markerMatch (markerSeq s) (lsbsFrom s 0 n) = false)
    (hyes : markerMatch (markerSeq s) (lsbsFrom s 0 f) = true) :
    extractScan k p s = raise .ok (setBitsLen (scanned s p (f - p)) (f - mlenOf s)) := by
  induction k generalizing p s with
  | zero => omega
  | succ k ih =>
    simp only [extractScan, matchedAt_extractStep s p h]
    by_cases hpf : f = p + 1
    · subst hpf
      rw [if_pos hyes, show p + 1 - p = 1 by omega, ← extractStep_eq]
    · rw [if_neg (by simp [hno (p + 1) (by omega) (by omega)])]
      have hb : readBits (extractStep s p) 0 (p + 1) = lsbsFrom s 0 (p + 1) := by
        rw [extractStep_eq]
        exact readBits_scanned s p 1 h
      rw [ih (p + 1) (extractStep s p) hb (by omega) (by omega)
        (fun n h1 h2 => hno n (by omega) h2) hyes]
      rw [scanned_succ, show f - (p + 1) + 1 = f - p by omega]
      rfl

/-- The scan without a match visits every pixel. -/
theorem extractScan_exhaust (k p : Nat) (s : State) (h : readBits s 0 p = lsbsFrom s 0 p)
    (hno : ∀ n, p < n → n ≤ p + k → markerMatch (markerSeq s) (lsbsFrom s 0 n) = false) :
    extractScan k p s = raise .notFound (setBitsLen (scanned s p k) (p + k)) := by
  induction k generalizing p s with
  | zero => rfl
  | succ k ih =>
    simp only [extractScan, matchedAt_extractStep s p h]
    rw [if_neg (by simp [hno (p + 1) (by omega) (by omega)])]
    have hb : readBits (extractStep s p) 0 (p + 1) = lsbsFrom s 0 (p + 1) := by
      rw [extractStep_eq]
      exact readBits_scanned s p 1 h
    rw [ih (p + 1) (extractStep s p) hb (fun n h1 h2 => hno n (by omega) (by omega))]
    rw [scanned_succ, show p + 1 + k = p + (k + 1) by omega]

/-- An empty prefix holds no marker of positive length. -/
theorem markerMatch_nil {mk : List Bit} (h : mk ≠ []) : markerMatch mk [] = false := by
  cases mk with
  | nil => exact absurd rfl h
  | cons b l => simp [markerMatch]

theorem markerSeq_ne_nil {s : State} (h : 1 ≤ mlenOf s) : markerSeq s ≠ [] := by
  intro hn
  have := congrArg List.length hn
  simp at this
  omega

/-- The body of `EXT` when the grid's LSBs contain the marker, first at `f`. -/
theorem extBody_found {s : State} (hM : 1 ≤ mlenOf s) {f : Nat}
    (h : firstMatch (markerSeq s) (gridLsbs s) = some f) :
    extBody s = raise .ok (setBitsLen (scanned (setCur s 0) 0 f) (f - mlenOf s)) := by
  obtain ⟨h1, h2, h3, h4⟩ := firstMatch_some h
  rw [gridLsbs_length] at h2
  rw [markerSeq_length] at h1
  rw [gridLsbs_eq] at h3 h4
  have hno : ∀ n, 0 < n → n < f →
      markerMatch (markerSeq (setCur s 0)) (lsbsFrom (setCur s 0) 0 n) = false := by
    intro n _ hn
    have := h4 n hn
    rwa [lsbsFrom_take _ _ _ _ (by omega)] at this
  rw [lsbsFrom_take _ _ _ _ h2] at h3
  exact extractScan_stop (capacityOf s) 0 f (setCur s 0) rfl (by omega) (by omega) hno h3

/-- The body of `EXT` when no prefix of the grid's LSBs ends with the marker. -/
theorem extBody_notFound {s : State} (h : firstMatch (markerSeq s) (gridLsbs s) = none) :
    extBody s =
      raise .notFound (setBitsLen (scanned (setCur s 0) 0 (capacityOf s)) (capacityOf s)) := by
  have hno : ∀ n, 0 < n → n ≤ 0 + capacityOf s →
      markerMatch (markerSeq (setCur s 0)) (lsbsFrom (setCur s 0) 0 n) = false := by
    intro n _ hn
    have := firstMatch_none h n (by rw [gridLsbs_length]; omega)
    rw [gridLsbs_eq, lsbsFrom_take _ _ _ _ (by omega)] at this
    exact this
  have := extractScan_exhaust (capacityOf s) 0 (setCur s 0) rfl hno
  simpa [extBody] using this

end Sys2Proof.Machine
end

