-- ==== Sys2Proof/Tests/Slice0.lean ====
section
/-! SUPPORT. The model's own tests. Expected results are those of spec/95_test_vectors.md (each test
names its vector) or read off an encoding table; a theorem `witness_…` shows a state and operands
that meet the hypotheses of the statement it names. -/

open Sys2Proof Sys2Proof.Machine

namespace Sys2Proof.Tests

/-! ### Helpers -/

/-- Cells from address 0 on. -/
def cells {α : Type} (l : List α) : List (Nat × α) := l.zipIdx.map (fun c => (c.2, c.1))

/-- The reset state with other registers and loaded memories. -/
def load (r : Regs) (pix msg : List Byte) (bits : List Bit) : State :=
  { State.reset with regs := r, pix := cells pix, msg := cells msg, bits := cells bits }

/-- A check of the state an outcome answers. -/
def after (o : Host.Outcome State Fault Refusal) (check : State → Bool) : Bool :=
  match o with
  | .next t => check t
  | .fault _ => false
  | .refused _ => false

/-- Bits written as digits. -/
def digits (l : List Nat) : List Bit := l.map (fun d => d == 1)

/-- The grid of vector E1: 2 by 2, three channels, Blue. -/
def e1Pix : List Byte := [10, 20, 30, 11, 21, 31, 12, 22, 32, 13, 23, 33]

/-- The registers of vector E1 with `n` bits in `BITS`. -/
def e1Regs (n : Word) : Regs := { Regs.reset with width := 2, height := 2, bitsLen := n }

/-- The grid of vector E7a: 4 by 4, three channels, Blue, every cell `FF`, message "A". -/
def e7a : State :=
  load { Regs.reset with width := 4, height := 4, msgLen := 1 } (List.replicate 48 0xFF) [0x41] []

/-- Vector X1: the grid E7a leaves. -/
def x1 : State :=
  load { Regs.reset with width := 4, height := 4 }
    ([0xFE, 0xFF, 0xFE, 0xFE, 0xFE, 0xFE, 0xFE, 0xFF, 0xFE, 0xFE, 0xFE, 0xFE, 0xFE, 0xFE, 0xFE,
      0xFE].flatMap (fun b => [0xFF, 0xFF, b])) [] []

/-- Vector X3: 4 by 3, every cell `7F`. -/
def x3 : State :=
  load { Regs.reset with width := 4, height := 3 } (List.replicate 36 0x7F) [] []

/-- Vector X4: 7 by 1, Red, marker `101`. -/
def x4 : State :=
  { load { Regs.reset with width := 7, height := 1, chsel := 0, mlen := 3 }
      ([0x10, 0x20, 0x31, 0x40, 0x51, 0x61, 0x70].flatMap (fun b => [b, 0, 0])) [] [] with
    mrkr := [(0, true), (2, true)] }

/-- Vector Y3: message "P", whose last byte is even. -/
def y3 : State :=
  load { Regs.reset with width := 16, height := 1, msgLen := 1 } (List.replicate 48 0xFF) [0x50] []

/-- Vector E1: 2 by 2, Blue, three bits. -/
def e1 : State := load (e1Regs 3) e1Pix [] (digits [1, 0, 1])

/-- Vector E7: message "A" and a 15-pixel grid. -/
def e7 : State := { e7a with regs := { e7a.regs with width := 5, height := 3 } }

/-- Vector X2: 4 by 3, every cell `80`. -/
def x2 : State := load { Regs.reset with width := 4, height := 3 } (List.replicate 36 0x80) [] []

/-- Vectors X6 and X7: `w` by 1, every cell `00`. -/
def x67 (w : Word) : State :=
  load { Regs.reset with width := w, height := 1 } (List.replicate 24 0x00) [] []

/-! ### Decoding: words written out from R91 and R92; section 2.10 of the vectors -/

theorem test_decode_t2b : decode 0b00000000000000000000000000000001#32 = .ok .t2b := by decide
theorem test_decode_b2t : decode 0b00000000000000000000000000000010#32 = .ok .b2t := by decide
theorem test_decode_mrk : decode 0b00000000000000000000000000000011#32 = .ok .mrk := by decide
theorem test_decode_cap : decode 0b00000000000000000000000000000100#32 = .ok .cap := by decide
theorem test_decode_emb : decode 0b00000000000000000000000000000101#32 = .ok .emb := by decide
theorem test_decode_enc : decode 0b00000000000000000000000000000110#32 = .ok .enc := by decide
theorem test_decode_ext : decode 0b00000000000000000000000000000111#32 = .ok .ext := by decide
theorem test_decode_dec : decode 0b00000000000000000000000000001000#32 = .ok .dec := by decide
theorem test_decode_reserved_op : decode 0#32 = .error .reservedOpcode ∧
    decode 9#32 = .error .reservedOpcode ∧ decode 15#32 = .error .reservedOpcode := by decide
theorem test_decode_reserved_bits : decode 0x10#32 = .error .reservedBits ∧
    decode 0x16#32 = .error .reservedBits ∧ decode 0x80000006#32 = .error .reservedBits ∧
    decode 0xFFFFFFFF#32 = .error .reservedBits := by decide
theorem test_table_word : decodeTableWord 32 6 = some .enc ∧ decodeTableWord 32 9 = none := by
  decide

/-! ### Well-formedness: an ill-formed term for each check -/

theorem test_word_bits_set_refused : wordWellFormed 0x16#32 = false := by decide
theorem test_word_op_zero_refused : wordWellFormed 0#32 = false := by decide
theorem test_word_op_nine_refused : wordWellFormed 9#32 = false := by decide
theorem test_sizes_ref_legal : Config.ref.Legal := by decide
theorem test_sizes_dimw_refused : ¬ ({ Config.ref with dimW := 17 } : Sizes).Legal := by decide
theorem test_sizes_pix_refused : ¬ ({ Config.ref with pixSize := 2 ^ 32 } : Sizes).Legal := by
  decide
theorem test_sizes_msg_refused : ¬ ({ Config.ref with msgMax := 131072 } : Sizes).Legal := by decide
theorem test_sizes_mlen_refused : ¬ ({ Config.ref with mlenMax := 0 } : Sizes).Legal := by decide
theorem test_sizes_bits_refused :
    ¬ ({ Config.ref with bitsMax := 2 ^ 32, outMax := 2 ^ 32 } : Sizes).Legal := by decide
theorem test_sizes_out_refused : ¬ ({ Config.ref with outMax := 131071 } : Sizes).Legal := by decide
theorem test_line_st_reg_refused : expandLine (.st .reg 2 5#32) = none := by decide
theorem test_line_text_refused : expandLine (.text [Char.ofNat 256]) = none := by decide

/-! ### One step each; the vectors of section 2 -/

/-- T6: bit 7 of the byte comes first. -/
theorem test_t2b_msb_first :
    after (exec .t2b (load { Regs.reset with msgLen := 1 } [] [0xA5] []))
      (fun t => bitsSeq t == digits [1, 0, 1, 0, 0, 1, 0, 1] && t.regs.result == 1#32) = true := by
  decide
/-- T10. -/
theorem test_t2b_too_long :
    after (exec .t2b (load { Regs.reset with msgLen := 65537 } [] [] []))
      (fun t => t.regs.bitsLen == 0#32 && t.regs.result == 5#32) = true := by decide
/-- B7: one dangling bit is dropped. -/
theorem test_b2t_drops_dangling :
    after (exec .b2t (load { Regs.reset with bitsLen := 17 } [] []
        (digits [0, 1, 0, 0, 1, 0, 0, 0, 0, 1, 1, 0, 1, 0, 0, 1, 1])))
      (fun t => outSeq t == [0x48, 0x69] && t.regs.outLen == 2#32 && t.regs.bitsLen == 17#32) =
      true := by decide
/-- B2: fewer than 8 bits give the empty text. -/
theorem test_b2t_short :
    after (exec .b2t (load { Regs.reset with bitsLen := 7 } [] [] (digits [0, 1, 0, 0, 1, 0, 0])))
      (fun t => t.out == [] && t.regs.outLen == 0#32 && t.regs.result == 1#32) = true := by decide
/-- K3: the sequence before need not be a multiple of 8. -/
theorem test_mrk_appends :
    after (exec .mrk (load { Regs.reset with bitsLen := 3 } [] [] (digits [1, 0, 1])))
      (fun t => bitsSeq t == digits [1, 0, 1, 0, 0, 0, 0, 0, 0, 0, 0]) = true := by decide
/-- K8: the buffer has no room. -/
theorem test_mrk_no_room :
    after (exec .mrk (load { Regs.reset with bitsLen := 1048570 } [] [] []))
      (fun t => t.regs.bitsLen == 1048570#32 && t.regs.result == 5#32) = true := by decide
/-- C9: no wrap, and a payload of exactly the capacity fits. -/
theorem test_cap_exact_product :
    after (exec .cap (load { Regs.reset with width := 65535, height := 65535,
                                             bitsLen := 4294836225 } [] [] []))
      (fun t => t.regs.result == 1#32) = true := by decide
/-- C10: one bit more does not fit. -/
theorem test_cap_one_over :
    after (exec .cap (load { Regs.reset with width := 65535, height := 65535,
                                             bitsLen := 4294836226 } [] [] []))
      (fun t => t.regs.result == 2#32) = true := by decide
/-- E1. -/
theorem test_emb_blue :
    after (exec .emb (load (e1Regs 3) e1Pix [] (digits [1, 0, 1])))
      (fun t => t.pix == cells [10, 20, 31, 11, 21, 30, 12, 22, 33, 13, 23, 33] &&
        t.regs.cur == 3#32 && t.regs.result == 1#32) = true := by decide +kernel
/-- E4: one bit too many leaves the grid alone. -/
theorem test_emb_capacity :
    after (exec .emb (load (e1Regs 5) e1Pix [] (digits [1, 0, 1, 1, 0])))
      (fun t => t.pix == cells e1Pix && t.regs.cur == 0#32 && t.regs.result == 2#32) = true := by
  decide +kernel
/-- E7a. -/
theorem test_enc_exact_fit :
    after (exec .enc e7a) (fun t => t.pix == x1.pix && t.regs.cur == 16#32 &&
      bitsSeq t == digits [0, 1, 0, 0, 0, 0, 0, 1, 0, 0, 0, 0, 0, 0, 0, 0]) = true := by
  decide +kernel
/-- E7: a 15-pixel grid; the payload stays in `BITS`, the grid is untouched. -/
theorem test_enc_capacity :
    after (exec .enc e7)
      (fun t => t.pix == e7.pix && t.regs.bitsLen == 16#32 && t.regs.result == 2#32) = true := by
  decide +kernel
/-- X4: the scan stops at pixel index 5. -/
theorem test_ext_stops_at_first_match :
    after (exec .ext x4) (fun t => t.regs.cur == 5#32 && bitsSeq t == digits [0, 0] &&
      t.bits == cells (digits [0, 0, 1, 0, 1]) && t.regs.result == 1#32) = true := by
  decide +kernel
/-- X3. -/
theorem test_ext_not_found :
    after (exec .ext x3) (fun t => t.regs.cur == 12#32 && bitsSeq t == List.replicate 12 true &&
      t.regs.result == 3#32) = true := by decide +kernel
/-- X1. -/
theorem test_dec_recovers :
    after (exec .dec x1) (fun t => outSeq t == [0x41] && t.regs.bitsLen == 8#32 &&
      t.regs.cur == 16#32 && t.pix == x1.pix) = true := by decide +kernel
/-- Y3: the empty text, with `OK`. -/
theorem test_dec_early_marker :
    after (exec .enc y3) (fun t => after (exec .dec t) (fun u => u.regs.cur == 12#32 &&
      u.regs.bitsLen == 4#32 && u.regs.outLen == 0#32 && u.regs.result == 1#32)) = true := by
  decide +kernel

/-- W7: a word with bit 4 set is stored and refused. -/
theorem test_step_refuses_reserved :
    after (step (State.reset.withFetchWord 32 0x16))
      (fun t => t == { State.reset with regs := { Regs.reset with cmd := 0x16, result := 4 } }) =
      true := by decide +kernel
/-- Section 2.11: `ENC` right after reset. -/
theorem test_step_enc_from_reset :
    after (step (State.reset.withFetchWord 32 6))
      (fun t => t.regs.cmd == 6#32 && t.regs.result == 2#32 && t.regs.bitsLen == 8#32) = true := by
  decide
/-- A host read returns the cell, and a host write to `OUT` is ignored (R63). -/
theorem test_step_host_access :
    after (step { State.reset with script := [.read .reg 6] }) (fun t => t.reads == [8#32]) = true ∧
    after (step { State.reset with script := [.write .out 0 5] }) (fun t => t == State.reset) =
      true := by decide +kernel
/-- S8: the masking table. -/
theorem test_embed_bit : embedBit 0x7F true = 0x7F ∧ embedBit 0xFF false = 0xFE ∧
    embedBit 0x00 true = 0x01 ∧ embedBit 0x80 true = 0x81 := by decide
/-- M1, M3, M8, M9. -/
theorem test_marker_match :
    markerMatch (List.replicate 8 false) (List.replicate 7 false) = false ∧
    markerMatch (List.replicate 8 false) (digits [1, 0, 0, 0, 0, 0, 0, 0, 0]) = true ∧
    markerMatch (digits [1, 0, 1]) (digits [1, 0, 1, 0]) = false ∧
    markerMatch (digits [1, 0, 1]) (digits [1, 1, 0, 1]) = true := by decide
/-- M10, M12, M13. -/
theorem test_first_match :
    firstMatch (digits [1, 0, 1]) (digits [0, 0, 1, 0, 1, 1, 0]) = some 5 ∧
    firstMatch (List.replicate 8 false)
      (payload (List.replicate 8 false) [0x54, 0x65, 0x73, 0x74]) = some 38 ∧
    firstMatch (List.replicate 8 false) (List.replicate 12 true) = none := by decide +kernel
/-- The script line `TEXT "Hi"` of program P1. -/
theorem test_script_text : expandScript [.text ['H', 'i'], .encode] =
    some [.write .msg 0 0x48, .write .msg 1 0x69, .write .reg 7 2, .write .reg 0 6] := by
  decide +kernel

/-! ### Witnesses: states and operands that meet a statement's hypotheses -/

theorem witness_ReservedWordsEndWithErrCmd :
    zeroField 0x16#32 ≠ 0#28 ∧ (opField 0x0#32).toNat = 0 ∧ 9 ≤ (opField 0x9#32).toNat := by decide

theorem witness_StepRunsTheDecodedCommand : decode 0x6#32 = .ok .enc := by decide

theorem witness_FetchedWordRunsNext : decodeTableWord 32 8 = some .dec := by decide

theorem witness_StepDoesTheHostsNextOperation :
    State.reset.script = [] ∧ (Space.pix ≠ .reg ∨ 0 ≠ 0) ∧ (Space.reg ≠ .reg ∨ 1 ≠ 0) := by decide

theorem witness_HostWriteChangesOnlyItsCell :
    (Space.pix, 1) ≠ (Space.pix, 0) ∧ (Space.msg, 0) ≠ (Space.pix, 0) := by decide

theorem witness_HostAccessRights :
    11 ≤ 11 ∧ (10 = 1 ∨ 10 = 9 ∨ 10 = 10) ∧ (2 ≤ 2 ∧ 2 ≤ 8) ∧ (2 ≤ 8 ∧ 8 ≤ 8) ∧
    4194303 < State.reset.sizes.pixSize ∧ 65535 < State.reset.sizes.msgMax ∧
    63 < State.reset.sizes.mlenMax ∧ 1048575 < State.reset.sizes.bitsMax ∧
    131071 < State.reset.sizes.outMax := by decide

theorem witness_AccessBeyondTheEndReachesNoCell :
    State.reset.sizes.pixSize ≤ 4194304 ∧ State.reset.sizes.msgMax ≤ 65536 ∧
    State.reset.sizes.outMax ≤ 131072 ∧ State.reset.sizes.bitsMax ≤ 1048576 ∧
    State.reset.sizes.mlenMax ≤ 64 := by decide

theorem witness_ResetLeavesTheResetValues :
    step { x1 with script := .reset :: x1.script } = .next (applyReset x1) := rfl

theorem witness_StepKeepsWellFormedness :
    ({ e1 with script := [.write .reg 0 5] } : State).wf ∧
      ∃ t, step { e1 with script := [.write .reg 0 5] } = .next t ∧ t.regs.cur = 3#32 := by
  refine ⟨by decide +kernel, _, rfl, by decide +kernel⟩

theorem witness_TextToBitsIsMsbFirst : ([0x54#8] : List Byte)[0]? = some 0x54#8 ∧ 7 < 8 := by decide

theorem witness_BitsToTextDropsTheDanglingGroup : 0 < (List.replicate 9 true).length / 8 := by decide

theorem witness_CodecLaws : (List.replicate 8 true).length % 8 = 0 := by decide

theorem witness_T2bWritesTheMessageBits :
    State.reset.sizes.Legal ∧ MsgOK (load { Regs.reset with msgLen := 65536 } [] [] []) ∧
    ¬ MsgOK (load { Regs.reset with msgLen := 65537 } [] [] []) := by decide

theorem witness_B2tWritesTheText :
    State.reset.sizes.Legal ∧ BitsOK (load { Regs.reset with bitsLen := 1048576 } [] [] []) ∧
    ¬ BitsOK (load { Regs.reset with bitsLen := 1048577 } [] [] []) := by decide

theorem witness_MarkerMatchIsTheSuffixTest :
    (List.replicate 7 false).length < (List.replicate 8 false).length := by decide

theorem witness_RollingDetectorIsMarkerMatch : digits [1, 0, 1] ≠ [] := by decide

theorem witness_MrkAppendsTheMarker :
    State.reset.sizes.Legal ∧ MrkOK (load { Regs.reset with bitsLen := 1048568 } [] [] []) ∧
    ¬ MrkOK (load { Regs.reset with bitsLen := 1048569 } [] [] []) := by decide

theorem witness_EmptyOrOverlongMarkerIsRefused :
    mlenOf (load { Regs.reset with mlen := 0 } [] [] []) = 0 ∧
    State.reset.sizes.mlenMax < mlenOf (load { Regs.reset with mlen := 65 } [] [] []) := by decide

theorem witness_CapComparesWithTheCapacity :
    (DimOK (load (e1Regs 4) [] [] []) ∧ bitsLenOf (load (e1Regs 4) [] [] []) ≤ 2 * 2) ∧
    (DimOK (load (e1Regs 5) [] [] []) ∧ 2 * 2 < bitsLenOf (load (e1Regs 5) [] [] [])) ∧
    ¬ DimOK (load { Regs.reset with width := 65536, height := 1 } [] [] []) := by decide

theorem witness_EncSignalsCapacityExactly :
    State.reset.sizes.Legal ∧
    (EncOK e7a ∧ 8 * msgLenOf e7a + mlenOf e7a ≤ widthOf e7a * heightOf e7a) ∧
    (EncOK e7 ∧ widthOf e7 * heightOf e7 < 8 * msgLenOf e7 + mlenOf e7) ∧
    (EncOK State.reset ∧ widthOf State.reset * heightOf State.reset = 0) := by decide +kernel

theorem witness_CountsNeverWrap :
    State.reset.sizes.Legal ∧
    DimOK (load { Regs.reset with width := 65535, height := 65535 } [] [] []) ∧
    MsgOK (load { Regs.reset with msgLen := 65536, mlen := 64 } [] [] []) ∧
    MarkerOK (load { Regs.reset with msgLen := 65536, mlen := 64 } [] [] []) ∧
    BitsOK (load { Regs.reset with bitsLen := 1048576 } [] [] []) := by decide

theorem witness_EmbedBitReplacesTheLsb :
    (0xFF#8).getLsbD 0 = true ∧ (0x00#8).getLsbD 0 = false ∧ 1 ≤ 7 := by decide

theorem witness_EmbEmbedsTheBitSequence :
    (EmbOK (load (e1Regs 4) e1Pix [] []) ∧ bitsLenOf (load (e1Regs 4) e1Pix [] []) ≤ 2 * 2) ∧
    (EmbOK (load (e1Regs 5) e1Pix [] []) ∧ 2 * 2 < bitsLenOf (load (e1Regs 5) e1Pix [] [])) ∧
    ¬ GridOK (load { e1Regs 3 with nch := 4, chsel := 3 } e1Pix [] []) := by decide +kernel

theorem witness_EncEmbedsThePayload :
    State.reset.sizes.Legal ∧
    (EncOK e7a ∧ 8 * msgLenOf e7a + mlenOf e7a ≤ widthOf e7a * heightOf e7a) ∧
    (EncOK State.reset ∧ 0 * 0 < 8 * msgLenOf State.reset + mlenOf State.reset) ∧
    ¬ EncOK (load { Regs.reset with mlen := 0 } [] [] []) := by decide +kernel

theorem witness_EncodersMutateOnlyTheLsb :
    State.reset.sizes.Legal ∧ ∃ t, exec .enc e7a = .next t ∧ t.regs.result = 1#32 := by
  refine ⟨by decide, _, rfl, by decide +kernel⟩

theorem witness_EncLeavesThePayloadInTheLsbs :
    e7a.sizes.Legal ∧ EncOK e7a ∧ 8 * msgLenOf e7a + mlenOf e7a ≤ widthOf e7a * heightOf e7a := by
  decide +kernel

theorem witness_ExtExtractsUpToTheFirstMatch :
    State.reset.sizes.Legal ∧ (ScanOK x4 ∧ firstMatch (markerSeq x4) (gridLsbs x4) = some 5) ∧
    (ScanOK x3 ∧ firstMatch (markerSeq x3) (gridLsbs x3) = none) ∧
    ¬ ScanOK (load { Regs.reset with nch := 5 } [] [] []) := by decide +kernel

theorem witness_DecRecoversTheText :
    State.reset.sizes.Legal ∧ (ScanOK x1 ∧ firstMatch (markerSeq x1) (gridLsbs x1) = some 16) ∧
    (ScanOK x3 ∧ firstMatch (markerSeq x3) (gridLsbs x3) = none) ∧
    ¬ ScanOK (load { Regs.reset with chsel := 3 } [] [] []) := by decide +kernel

theorem witness_EmptyGridIsNotFound :
    ScanOK (load { Regs.reset with height := 7 } [] [] []) ∧
    widthOf (load { Regs.reset with height := 7 } [] [] []) *
      heightOf (load { Regs.reset with height := 7 } [] [] []) = 0 := by decide

theorem witness_GridNoLargerThanTheMarker :
    (ScanOK (x67 7) ∧ widthOf (x67 7) * heightOf (x67 7) < mlenOf (x67 7)) ∧
    (ScanOK (x67 8) ∧ widthOf (x67 8) * heightOf (x67 8) = mlenOf (x67 8) ∧
      gridLsbs (x67 8) = markerSeq (x67 8)) ∧
    (x67 8).sizes.Legal := by decide +kernel

theorem witness_UntouchedGridsCanMatch :
    (ScanOK x2 ∧ markerSeq x2 = List.replicate 8 false ∧ 8 ≤ widthOf x2 * heightOf x2 ∧
      ∀ p, p < 8 → (readPix x2 (p * nchOf x2 + chselOf x2)).toNat % 2 = 0) ∧
    (ScanOK x3 ∧ markerSeq x3 = List.replicate 8 false ∧
      ∀ p, p < widthOf x3 * heightOf x3 →
        (readPix x3 (p * nchOf x3 + chselOf x3)).toNat % 2 = 1) ∧
    x3.sizes.Legal := by decide +kernel

theorem witness_DecoderReadsOnlyVisitedLsbs :
    x4.sizes.Legal ∧ ∃ t, exec .ext x4 = .next t ∧ t.regs.result ≠ 5#32 ∧ curOf t = 5 ∧
      ∀ p, p < 5 → (readPix { x4 with pix := cells (List.replicate 15 0 |>.set 6 3 |>.set 12 7) }
          (p * nchOf x4 + chselOf x4)).getLsbD 0 =
        (readPix x4 (p * nchOf x4 + chselOf x4)).getLsbD 0 := by
  refine ⟨by decide, _, rfl, by decide +kernel, by decide +kernel, by decide +kernel⟩

theorem witness_DimensionsEnterThroughTheirProduct :
    x1.sizes.Legal ∧ ScanOK x1 ∧
    ScanOK { x1 with regs := { x1.regs with width := 8, height := 2 } } ∧
    ∃ t, exec .dec x1 = .next t ∧ t.regs.result = 1#32 ∧
      curOf t ≤ (8#32).toNat * (2#32).toNat := by
  refine ⟨by decide, by decide +kernel, by decide +kernel, _, rfl, by decide +kernel,
    by decide +kernel⟩

theorem witness_DimensionsEnterThroughTheirProduct_not_found :
    x3.sizes.Legal ∧ ScanOK x3 ∧
    ScanOK { x3 with regs := { x3.regs with width := 6, height := 2 } } ∧
    ∃ t, exec .dec x3 = .next t ∧ t.regs.result = 3#32 ∧
      (6#32).toNat * (2#32).toNat = widthOf x3 * heightOf x3 := by
  refine ⟨by decide, by decide +kernel, by decide +kernel, _, rfl, by decide +kernel, by decide⟩

theorem witness_RoundTrip :
    e7a.sizes.Legal ∧ EncOK e7a ∧ ScanOK e7a ∧
    8 * msgLenOf e7a + mlenOf e7a ≤ widthOf e7a * heightOf e7a ∧
    NoEarlyMarker (markerSeq e7a) (msgSeq e7a) := by decide +kernel

theorem witness_EarlyMarkerTruncates :
    y3.sizes.Legal ∧ EncOK y3 ∧ ScanOK y3 ∧
    8 * msgLenOf y3 + mlenOf y3 ≤ widthOf y3 * heightOf y3 ∧
    firstMatch (markerSeq y3) (payload (markerSeq y3) (msgSeq y3)) = some 12 ∧
    12 < 8 * msgLenOf y3 + mlenOf y3 := by decide +kernel

theorem witness_ZeroMarkerLoss_trailing_zeros :
    (∀ i, i + 8 ≤ (textToBits [0x54, 0x74]).length →
      ((textToBits [0x54, 0x74]).drop i).take 8 ≠ List.replicate 8 false) ∧
    ([0x54, 0x74] : List Byte).getLast? = some 0x74 ∧ (0x74#8).getLsbD 2 = true ∧
    ∀ k, k < 2 → (0x74#8).getLsbD k = false := by
  refine ⟨?_, by decide, by decide, by decide⟩
  intro i hi
  have h16 : i < 9 := by
    have : (textToBits [0x54, 0x74]).length = 16 := by decide
    omega
  have all : ∀ i, i < 9 →
      ((textToBits [0x54, 0x74]).drop i).take 8 ≠ List.replicate 8 false := by decide +kernel
  exact all i h16

theorem witness_ZeroMarkerLoss_zero_byte :
    ([0x61, 0x00, 0x62] : List Byte)[1]? = some 0#8 ∧
    (∀ j, j + 8 ≤ 8 * 1 → ((textToBits [0x61, 0x00, 0x62]).drop j).take 8 ≠
      List.replicate 8 false) ∧
    ∃ v, ([0x61, 0x00, 0x62] : List Byte)[1 - 1]? = some v ∧ v.getLsbD 0 = true := by
  refine ⟨by decide, ?_, 0x61, by decide, by decide⟩
  intro j hj
  have : j = 0 := by omega
  subst this
  decide +kernel

theorem witness_StagesComposeToEnc : e7a.sizes.Legal ∧ EncOK e7a := by decide +kernel

theorem witness_ExtThenB2tIsDec :
    x1.sizes.Legal ∧ ScanOK x1 ∧ ∃ t, exec .ext x1 = .next t ∧ t.regs.result = 1#32 := by
  refine ⟨by decide, by decide +kernel, _, rfl, by decide +kernel⟩

theorem witness_RunningTwiceGivesTheSameState :
    e7a.wf ∧ Instr.enc ≠ .mrk ∧ ∃ t, exec .enc e7a = .next t ∧ t.regs.result = 1#32 := by
  refine ⟨by decide +kernel, by decide, _, rfl, by decide +kernel⟩

theorem witness_CommandsWriteOnlyWhatTheTableLists :
    ∃ t, exec .dec x1 = .next t ∧ t.regs.result = 1#32 := ⟨_, rfl, by decide +kernel⟩

theorem witness_IllegalConfigurationIsRefused :
    CommandOK .cap State.reset ∧ ¬ CommandOK .b2t (load { Regs.reset with bitsLen := 1048577 } [] [] []) :=
  ⟨show DimOK State.reset by decide,
    show ¬ BitsOK (load { Regs.reset with bitsLen := 1048577 } [] [] []) by decide⟩

theorem witness_ResultKindsOfEachCommand :
    ∃ t, exec .ext x3 = .next t ∧ t.regs.result = 3#32 := ⟨_, rfl, by decide +kernel⟩

theorem witness_FailuresArePrecise :
    (∃ t, issueCommand State.reset 0x16 = .next t ∧ t.regs.result = 4#32) ∧
    (∃ t, issueCommand (load { Regs.reset with mlen := 0 } [] [] []) 3 = .next t ∧
      t.regs.result = 5#32) ∧
    (∃ t, issueCommand (load (e1Regs 5) e1Pix [] []) 5 = .next t ∧ t.regs.result = 2#32) ∧
    (∃ t, issueCommand x3 7 = .next t ∧ t.regs.result = 3#32) :=
  ⟨⟨_, rfl, by decide +kernel⟩, ⟨_, rfl, by decide +kernel⟩, ⟨_, rfl, by decide +kernel⟩,
    ⟨_, rfl, by decide +kernel⟩⟩

theorem witness_CursorAfterAScan :
    (∃ t, exec .enc e7a = .next t ∧ t.regs.result = 1#32) ∧
    (∃ t, exec .emb (load (e1Regs 5) e1Pix [] []) = .next t ∧ t.regs.result = 2#32) ∧
    (∃ t, exec .ext x3 = .next t ∧ t.regs.result = 3#32) ∧
    ∃ t, exec .dec x1 = .next t ∧ t.regs.result = 1#32 :=
  ⟨⟨_, rfl, by decide +kernel⟩, ⟨_, rfl, by decide +kernel⟩, ⟨_, rfl, by decide +kernel⟩,
    ⟨_, rfl, by decide +kernel⟩⟩

theorem witness_GridCellsAreDistinctAndInsidePix :
    GridOK x1 ∧ 3 < widthOf x1 ∧ 3 < heightOf x1 ∧ 2 < nchOf x1 := by decide +kernel

theorem witness_OrdinalMappingIsExactAndReversible :
    (∀ c ∈ ['H', 'ÿ'], c.toNat ≤ 255) ∧ ∃ c ∈ ['H', 'Ā'], 255 < c.toNat := by
  simp

theorem witness_ScriptLinesExpand : Space.pix ≠ .reg ∧ ordinalMap ['A'] = some [0x41] := by decide

end Sys2Proof.Tests
end

section
/-! PROOFS. `State.wf` is an invariant: it holds right after reset and every step keeps it. One
lemma for the replacement of each field the machine writes, then one for each operation of the
machine, each body of a command, each command and each host event, built from the ones before. -/

namespace Sys2Proof.Machine

variable {s t : State}

/-! ### Replacing one field of a well-formed state -/

theorem wf_withRegs (hs : s.wf) (r : Regs) (hres : r.result.toNat ≤ 5)
    (hout : r.outLen.toNat ≤ s.sizes.outMax) : State.wf { s with regs := r } := by
  obtain ⟨hlegal, hpix, hmsg, hmrkr, hbits, houtMem, -, -⟩ := hs
  exact ⟨hlegal, hpix, hmsg, hmrkr, hbits, houtMem, hres, hout⟩

/-- Registers other than `RESULT` and `OUT_LEN` may take any value. -/
theorem wf_withFreeRegs (hs : s.wf) (r : Regs) (hres : r.result = s.regs.result)
    (hout : r.outLen = s.regs.outLen) : State.wf { s with regs := r } := by
  have ⟨_, _, _, _, _, _, hres', hout'⟩ := hs
  exact wf_withRegs hs r (hres ▸ hres') (hout ▸ hout')

theorem wf_withPix (hs : s.wf) {m : Memory Byte} (hm : Memory.wf unlistedByte s.sizes.pixSize m) :
    State.wf { s with pix := m } := by
  obtain ⟨hlegal, -, hrest⟩ := hs
  exact ⟨hlegal, hm, hrest⟩

theorem wf_withMsg (hs : s.wf) {m : Memory Byte} (hm : Memory.wf unlistedByte s.sizes.msgMax m) :
    State.wf { s with msg := m } := by
  obtain ⟨hlegal, hpix, -, hrest⟩ := hs
  exact ⟨hlegal, hpix, hm, hrest⟩

theorem wf_withMrkr (hs : s.wf) {m : Memory Bit}
    (hm : Memory.wf unlistedMarkerBit s.sizes.mlenMax m) : State.wf { s with mrkr := m } := by
  obtain ⟨hlegal, hpix, hmsg, -, hrest⟩ := hs
  exact ⟨hlegal, hpix, hmsg, hm, hrest⟩

theorem wf_withBits (hs : s.wf) {m : Memory Bit} (hm : Memory.wf unlistedBit s.sizes.bitsMax m) :
    State.wf { s with bits := m } := by
  obtain ⟨hlegal, hpix, hmsg, hmrkr, -, hrest⟩ := hs
  exact ⟨hlegal, hpix, hmsg, hmrkr, hm, hrest⟩

theorem wf_withOut (hs : s.wf) {m : Memory Byte} (hm : Memory.wf unlistedByte s.sizes.outMax m) :
    State.wf { s with out := m } := by
  obtain ⟨hlegal, hpix, hmsg, hmrkr, hbits, -, hrest⟩ := hs
  exact ⟨hlegal, hpix, hmsg, hmrkr, hbits, hm, hrest⟩

/-! ### Register writes, `raise` and reset -/

/-- Every code of R220 is at most 5. -/
theorem resultCode_le (k : ResultKind) : (resultCode k).toNat ≤ 5 := by
  cases k <;> decide

theorem wf_raise (hs : s.wf) (k : ResultKind) : (raise k s).wf := by
  have ⟨_, _, _, _, _, _, _, hout⟩ := hs
  exact wf_withRegs hs _ (resultCode_le k) hout

theorem wf_setCmd (hs : s.wf) (w : Word) : (setCmd s w).wf := wf_withFreeRegs hs _ rfl rfl

theorem wf_setBitsLen (hs : s.wf) (n : Nat) : (setBitsLen s n).wf := wf_withFreeRegs hs _ rfl rfl

theorem wf_setCur (hs : s.wf) (n : Nat) : (setCur s n).wf := wf_withFreeRegs hs _ rfl rfl

/-- A register never holds more than the number it was set to, wrapped or not. -/
theorem toNat_ofNat_le (w n : Nat) : (BitVec.ofNat w n).toNat ≤ n := by
  rw [BitVec.toNat_ofNat]
  exact Nat.mod_le _ _

theorem bitsLenOf_setBitsLen_le (s : State) (n : Nat) : bitsLenOf (setBitsLen s n) ≤ n :=
  toNat_ofNat_le 32 n

theorem wf_setOutLen (hs : s.wf) {n : Nat} (hn : n ≤ s.sizes.outMax) : (setOutLen s n).wf := by
  have ⟨_, _, _, _, _, _, hres, _⟩ := hs
  exact wf_withRegs hs _ hres (Nat.le_trans (toNat_ofNat_le 32 n) hn)

/-- Reset needs nothing of the state but its sizes. -/
theorem wf_applyReset (hlegal : s.sizes.Legal) : (applyReset s).wf :=
  ⟨hlegal, Memory.nil_wf _ _, Memory.nil_wf _ _, Memory.nil_wf _ _, Memory.nil_wf _ _,
    Memory.nil_wf _ _, resultCode_le .none, Nat.zero_le _⟩

theorem configRef_legal : Config.ref.Legal := by decide

/-! ### Memory writes and scans -/

theorem wf_writeBits (hs : s.wf) {a : Nat} {l : List Bit} (h : a + l.length ≤ s.sizes.bitsMax) :
    (writeBits s a l).wf := by
  have ⟨_, _, _, _, hbits, _⟩ := hs
  rw [writeBits_frame]
  exact wf_withBits hs (writeBits_wf s _ a l hbits h)

theorem wf_writeOuts (hs : s.wf) {a : Nat} {l : List Byte} (h : a + l.length ≤ s.sizes.outMax) :
    (writeOuts s a l).wf := by
  have ⟨_, _, _, _, _, hout, _⟩ := hs
  rw [writeOuts_frame]
  exact wf_withOut hs (writeOuts_wf s _ a l hout h)

/-- The designated channel of a pixel of a legal grid is a cell of `PIX` (R65, R226). -/
theorem designatedCell_lt_pixSize (hg : GridOK s) {p : Nat} (hp : p < widthOf s * heightOf s) :
    designatedCell s p < s.sizes.pixSize := by
  obtain ⟨-, hN, hC, hfit⟩ := hg
  have hpixel : (p + 1) * nchOf s ≤ widthOf s * heightOf s * nchOf s := Nat.mul_le_mul_right _ hp
  rw [Nat.succ_mul] at hpixel
  unfold designatedCell pixAddr
  omega

theorem wf_embedScan (hs : s.wf) (hg : GridOK s) {k : Nat} (hk : k ≤ widthOf s * heightOf s) :
    (embedScan k 0 s).wf := by
  have ⟨_, hpix, _⟩ := hs
  have hscan : Memory.wf unlistedByte s.sizes.pixSize (embedScan k 0 s).pix :=
    embedScan_wf _ k 0 s hpix fun q _ hq => designatedCell_lt_pixSize hg (by omega)
  rw [embedScan_frame]
  exact wf_withFreeRegs (wf_withPix hs hscan) _ rfl rfl

theorem wf_scanned (hs : s.wf) {k : Nat} (hk : k ≤ s.sizes.bitsMax) : (scanned s 0 k).wf := by
  have hbits : (writeBits s 0 (lsbsFrom s 0 k)).wf := wf_writeBits hs (by simpa using hk)
  exact wf_withFreeRegs hbits _ (by simp) (by simp)

/-! ### The bodies of the commands -/

theorem wf_t2bBody (hs : s.wf) (hm : MsgOK s) : (t2bBody s).wf :=
  wf_setBitsLen (wf_writeBits hs (by simpa using hm.2)) _

theorem wf_mrkBody (hs : s.wf) (h : bitsLenOf s + mlenOf s ≤ s.sizes.bitsMax) : (mrkBody s).wf :=
  wf_setBitsLen (wf_writeBits hs (by simpa using h)) _

/-- A legal bit sequence gives a text that fits `OUT` (R11, R125). -/
theorem text_fits_out (hlegal : s.sizes.Legal) (hb : BitsOK s) :
    bitsLenOf s / 8 ≤ s.sizes.outMax := by
  obtain ⟨-, -, -, -, -, hout⟩ := hlegal
  exact Nat.le_trans (Nat.div_le_div_right hb) hout

theorem wf_b2tBody (hs : s.wf) (hb : BitsOK s) : (b2tBody s).wf := by
  have ⟨hlegal, _⟩ := hs
  have hfit := text_fits_out hlegal hb
  have hwrite : (writeOuts s 0 (bitsToText (bitsSeq s))).wf :=
    wf_writeOuts hs (by simpa [bitsToText_length] using hfit)
  exact wf_setOutLen hwrite (by simpa using hfit)

theorem wf_embBody (hs : s.wf) (hg : GridOK s) : (embBody s).wf := by
  have hs0 : (setCur s 0).wf := wf_setCur hs 0
  unfold embBody
  split
  next hfits =>
    have hlen : bitsLenOf s ≤ widthOf s * heightOf s := by simpa [fits] using hfits
    exact wf_raise (wf_embedScan (s := setCur s 0) hs0 hg hlen) .ok
  next => exact wf_raise hs0 .capacityError

/-- The bits of the message leave room for the marker in a legal `ENC` (R176, R226). -/
theorem t2bBody_leaves_room (h : 8 * msgLenOf s + mlenOf s ≤ s.sizes.bitsMax) :
    bitsLenOf (t2bBody s) + mlenOf (t2bBody s) ≤ (t2bBody s).sizes.bitsMax := by
  have hlen : bitsLenOf (t2bBody s) ≤ 8 * msgLenOf s := bitsLenOf_setBitsLen_le _ _
  have hmlen : mlenOf (t2bBody s) = mlenOf s := by simp [t2bBody]
  have hsizes : (t2bBody s).sizes = s.sizes := by simp [t2bBody]
  rw [hmlen, hsizes]
  omega

/-- Neither stage before the embedding of `ENC` touches the grid's registers. -/
theorem gridOK_mrkBody_t2bBody : GridOK (mrkBody (t2bBody s)) ↔ GridOK s := by
  simp [GridOK, DimOK, mrkBody, t2bBody]

/-- What the body of `EXT` does, match or none: it scans `v` pixels of the grid, keeps `n` of their
bits as the sequence and ends with some result kind (R193). -/
theorem extBody_eq_scanned (hM : MarkerOK s) :
    ∃ (k : ResultKind) (v n : Nat), v ≤ capacityOf s ∧ n ≤ capacityOf s ∧
      extBody s = raise k (setBitsLen (scanned (setCur s 0) 0 v) n) := by
  cases hfm : firstMatch (markerSeq s) (gridLsbs s) with
  | none => exact ⟨_, _, _, Nat.le_refl _, Nat.le_refl _, extBody_notFound hfm⟩
  | some f =>
    obtain ⟨-, hf, -⟩ := firstMatch_some hfm
    rw [gridLsbs_length] at hf
    exact ⟨_, _, _, hf, by omega, extBody_found hM.1 hfm⟩

theorem wf_extBody (hs : s.wf) (hc : ScanOK s) : (extBody s).wf := by
  obtain ⟨-, hM, hcap⟩ := hc
  obtain ⟨k, v, n, hv, -, heq⟩ := extBody_eq_scanned hM
  have hscan : (scanned (setCur s 0) 0 v).wf := wf_scanned (wf_setCur hs 0) (Nat.le_trans hv hcap)
  rw [heq]
  exact wf_raise (wf_setBitsLen hscan n) k

/-- The sequence the body of `EXT` leaves fits `BITS`. -/
theorem bitsOK_extBody (hc : ScanOK s) : BitsOK (extBody s) := by
  obtain ⟨-, hM, hcap⟩ := hc
  obtain ⟨k, v, n, -, hn, heq⟩ := extBody_eq_scanned hM
  rw [heq]
  calc bitsLenOf (setBitsLen (scanned (setCur s 0) 0 v) n)
    _ ≤ n := bitsLenOf_setBitsLen_le _ _
    _ ≤ s.sizes.bitsMax := Nat.le_trans hn hcap
    _ = (scanned (setCur s 0) 0 v).sizes.bitsMax := by simp

theorem wf_decTail (hs : s.wf) (hb : BitsOK s) : (decTail s).wf := by
  unfold decTail
  split
  next => exact wf_raise (wf_b2tBody hs hb) .ok
  next => exact wf_setOutLen hs (Nat.zero_le _)

/-! ### Commands and host events -/

/-- A command that checks its configuration and refuses with `ERR_CFG`: only the accepted side has
anything to show. -/
theorem wf_of_checked {p : Prop} [Decidable p] {u : State} (hs : s.wf) (hu : p → u.wf)
    (h : (if p then .next u else .next (raise .errCfg s) : Host.Outcome State Fault Refusal) =
      .next t) : t.wf := by
  split at h
  next hp => cases h; exact hu hp
  next => cases h; exact wf_raise hs .errCfg

/-- `CAP` writes `RESULT` only, whatever it finds (R162). -/
theorem execCap_eq_raise (s : State) : ∃ k, execCap s = .next (raise k s) := by
  unfold execCap
  split
  · split
    · exact ⟨.ok, rfl⟩
    · exact ⟨.capacityError, rfl⟩
  · exact ⟨.errCfg, rfl⟩

theorem wf_exec (i : Instr) (hs : s.wf) (h : exec i s = .next t) : t.wf := by
  cases i with
  | t2b => exact wf_of_checked hs (fun hm => wf_raise (wf_t2bBody hs hm) .ok) h
  | b2t => exact wf_of_checked hs (fun hb => wf_raise (wf_b2tBody hs hb) .ok) h
  | mrk => exact wf_of_checked hs (fun ⟨_, _, hfit⟩ => wf_raise (wf_mrkBody hs hfit) .ok) h
  | cap =>
    obtain ⟨k, hk⟩ := execCap_eq_raise s
    cases hk.symm.trans h
    exact wf_raise hs k
  | emb => exact wf_of_checked hs (fun ⟨hg, _⟩ => wf_embBody hs hg) h
  | enc =>
    refine wf_of_checked hs (fun ⟨hm, _, hg, hfit⟩ => ?_) h
    exact wf_embBody (wf_mrkBody (wf_t2bBody hs hm) (t2bBody_leaves_room hfit))
      (gridOK_mrkBody_t2bBody.mpr hg)
  | ext => exact wf_of_checked hs (fun hc => wf_extBody hs hc) h
  | dec => exact wf_of_checked hs (fun hc => wf_decTail (wf_extBody hs hc) (bitsOK_extBody hc)) h

theorem wf_issueCommand (hs : s.wf) {w : Word} (h : issueCommand s w = .next t) : t.wf := by
  unfold issueCommand at h
  split at h
  next i _ => exact wf_exec i (wf_setCmd hs w) h
  next => cases h; exact wf_raise (wf_setCmd hs w) .errCmd

/-- A host write to a register changes the registers only. -/
theorem hostWriteReg_frame (s : State) (a : Nat) (d : Word) :
    hostWriteReg s a d = { s with regs := (hostWriteReg s a d).regs } := by
  unfold hostWriteReg
  split <;> rfl

/-- The host cannot write `RESULT` (R63). -/
theorem hostWriteReg_result (s : State) (a : Nat) (d : Word) :
    (hostWriteReg s a d).regs.result = s.regs.result := by
  unfold hostWriteReg
  split <;> rfl

/-- The host cannot write `OUT_LEN` (R63). -/
theorem hostWriteReg_outLen (s : State) (a : Nat) (d : Word) :
    (hostWriteReg s a d).regs.outLen = s.regs.outLen := by
  unfold hostWriteReg
  split <;> rfl

theorem wf_hostWriteReg (hs : s.wf) (a : Nat) (d : Word) : (hostWriteReg s a d).wf := by
  rw [hostWriteReg_frame]
  exact wf_withFreeRegs hs _ (hostWriteReg_result s a d) (hostWriteReg_outLen s a d)

/-- A host write to a memory is stored inside the space and ignored beyond its end (R64). -/
theorem wf_ite_self {p : Prop} [Decidable p] {u : State} (hs : s.wf) (hu : p → u.wf) :
    State.wf (if p then u else s) :=
  iteInduction (motive := State.wf) hu (fun _ => hs)

theorem wf_hostStore (hs : s.wf) (sp : Space) (a : Nat) (d : Word) : (hostStore s sp a d).wf := by
  have ⟨_, hpix, hmsg, hmrkr, hbits, _⟩ := hs
  cases sp with
  | reg => exact wf_hostWriteReg hs a d
  | pix => exact wf_ite_self hs fun ha => wf_withPix hs (Memory.write_wf hpix ha _)
  | msg => exact wf_ite_self hs fun ha => wf_withMsg hs (Memory.write_wf hmsg ha _)
  | out => exact hs
  | bits => exact wf_ite_self hs fun ha => wf_withBits hs (Memory.write_wf hbits ha _)
  | mrkr => exact wf_ite_self hs fun ha => wf_withMrkr hs (Memory.write_wf hmrkr ha _)

theorem wf_runEvent (e : HostEvent) (hs : s.wf) (h : runEvent e s = .next t) : t.wf := by
  cases e with
  | read sp a => cases h; exact hs
  | write sp a d =>
    simp only [runEvent, hostWrite] at h
    split at h
    next => exact wf_issueCommand hs h
    next => cases h; exact wf_hostStore hs sp a d
  | reset => cases h; exact wf_applyReset hs.1

/-! ### The obligations -/

/-- Settles O13: the pending operation is taken off the script, which the invariant does not speak
of, and every host event keeps the invariant. -/
theorem stepKeepsWellFormedness : Obligations.StepKeepsWellFormedness := by
  intro s t hs h
  unfold step at h
  split at h
  next => cases h; exact hs
  next e rest _ => exact wf_runEvent (s := { s with script := rest }) e hs h

/-- Settles O12: apart from the reset count, which the invariant does not speak of, the state after
reset is what a reset event makes of it. -/
theorem resetIsWellFormed : Obligations.ResetIsWellFormed :=
  wf_applyReset (s := State.reset) configRef_legal

end Sys2Proof.Machine
end

section
/-! PROOFS. With legal sizes no count the commands compute leaves its register (R12). -/

namespace Sys2Proof.Machine

variable {s : State}

/-- Legal dimensions have a product of at most `(2^DIMW - 1)^2` (R12). -/
theorem capacity_le_of_dimOK (hd : DimOK s) :
    widthOf s * heightOf s ≤ (2 ^ s.sizes.dimW - 1) ^ 2 := by
  obtain ⟨hw, hh⟩ := hd
  rw [Nat.pow_two]
  exact Nat.mul_le_mul (Nat.le_sub_one_of_lt hw) (Nat.le_sub_one_of_lt hh)

theorem capacity_lt_of_dimOK (hlegal : s.sizes.Legal) (hd : DimOK s) :
    widthOf s * heightOf s < 2 ^ 32 := by
  obtain ⟨hw, hh⟩ := hd
  obtain ⟨hdim, -⟩ := hlegal
  calc widthOf s * heightOf s
    _ < 2 ^ s.sizes.dimW * 2 ^ s.sizes.dimW := Nat.mul_lt_mul'' hw hh
    _ = 2 ^ (2 * s.sizes.dimW) := by rw [← Nat.pow_add, Nat.two_mul]
    _ ≤ 2 ^ 32 := Nat.pow_le_pow_right (by decide) hdim

/-- The payload of a legal message and marker fits `BITS` (R11, R97). -/
theorem payload_fits_bits (hlegal : s.sizes.Legal) (hm : MsgOK s) (hM : MarkerOK s) :
    8 * msgLenOf s + mlenOf s ≤ s.sizes.bitsMax := by
  obtain ⟨-, -, hroom, -⟩ := hlegal
  calc 8 * msgLenOf s + mlenOf s
    _ ≤ 8 * s.sizes.msgMax + s.sizes.mlenMax := Nat.add_le_add (Nat.mul_le_mul_left 8 hm.1) hM.2
    _ ≤ s.sizes.bitsMax := hroom

/-- Settles O28, one lemma for each count: the capacity, the payload length, the text length. -/
theorem countsNeverWrap : Obligations.CountsNeverWrap := by
  intro s hlegal
  refine ⟨fun hd => ⟨capacity_le_of_dimOK hd, capacity_lt_of_dimOK hlegal hd⟩, fun hm hM => ?_,
    text_fits_out hlegal⟩
  have hfit := payload_fits_bits hlegal hm hM
  obtain ⟨-, -, -, -, hbits, -⟩ := hlegal
  exact ⟨hfit, Nat.lt_of_le_of_lt hfit hbits⟩

end Sys2Proof.Machine
end

section
/-! PROOFS. What one host access reads and stores (R21, R33, R62, R63), what a write to `CMD` starts
(R22) and what a reset leaves (R42). -/

namespace Sys2Proof.Machine

variable {s t : State}

/-! ### Cells as words and words as cells (R62) -/

theorem bitWord_eq (b : Bit) : bitWord b = if b then 1#32 else 0#32 := by
  cases b <;> rfl

/-- A byte cell keeps `d[7:0]`. -/
theorem byteWord_lowByte (d : Word) : byteWord (lowByte d) = d &&& 0xFF#32 := by
  apply BitVec.eq_of_toNat_eq
  have hlow : (byteWord (lowByte d)).toNat = d.toNat % 2 ^ 8 := by
    rw [byteWord, lowByte, BitVec.toNat_setWidth, BitVec.extractLsb'_toNat, Nat.shiftRight_zero]
    exact Nat.mod_eq_of_lt (by omega)
  rw [hlow, BitVec.toNat_and]
  exact (Nat.and_two_pow_sub_one_eq_mod d.toNat 8).symm

/-- A bit cell keeps `d[0]`. -/
theorem bitWord_lowBit (d : Word) : bitWord (lowBit d) = d &&& 1#32 := by
  rw [bitWord_eq, lowBit, BitVec.and_one_eq_setWidth_ofBool_getLsbD]
  cases d.getLsbD 0 <;> rfl

/-! ### One register (R21, R33, R63) -/

/-- A reserved register reads 0 and ignores a write (log 8). -/
theorem reserved_register {a : Nat} (ha : 11 ≤ a) (d : Word) :
    hostReadReg s a = 0#32 ∧ hostWriteReg s a d = s := by
  obtain ⟨k, rfl⟩ := Nat.exists_eq_add_of_le' ha
  exact ⟨rfl, rfl⟩

/-- `RESULT`, `OUT_LEN` and `CUR` ignore a host write. -/
theorem hostWriteReg_readOnly {a : Nat} (ha : a = 1 ∨ a = 9 ∨ a = 10) (d : Word) :
    hostWriteReg s a d = s := by
  obtain rfl | rfl | rfl := ha <;> rfl

/-- Registers 2 to 8 read back the word written. -/
theorem hostReadReg_hostWriteReg {a : Nat} (hlo : 2 ≤ a) (hhi : a ≤ 8) (d : Word) :
    hostReadReg (hostWriteReg s a d) a = d := by
  interval_cases a <;> rfl

/-! ### One cell of a memory, inside its space -/

theorem hostRead_pix {a : Nat} (ha : a < s.sizes.pixSize) :
    hostRead s .pix a = byteWord (readPix s a) := if_pos ha

theorem hostRead_msg {a : Nat} (ha : a < s.sizes.msgMax) :
    hostRead s .msg a = byteWord (readMsg s a) := if_pos ha

theorem hostRead_out {a : Nat} (ha : a < s.sizes.outMax) :
    hostRead s .out a = byteWord (readOut s a) := if_pos ha

theorem hostRead_bits {a : Nat} (ha : a < s.sizes.bitsMax) :
    hostRead s .bits a = bitWord (readBit s a) := if_pos ha

theorem hostRead_mrkr {a : Nat} (ha : a < s.sizes.mlenMax) :
    hostRead s .mrkr a = bitWord (readMrkr s a) := if_pos ha

theorem hostStore_pix {a : Nat} (ha : a < s.sizes.pixSize) (d : Word) :
    hostStore s .pix a d = writePix s a (lowByte d) := if_pos ha

theorem hostStore_msg {a : Nat} (ha : a < s.sizes.msgMax) (d : Word) :
    hostStore s .msg a d = writeMsg s a (lowByte d) := if_pos ha

theorem hostStore_bits {a : Nat} (ha : a < s.sizes.bitsMax) (d : Word) :
    hostStore s .bits a d = writeBit s a (lowBit d) := if_pos ha

theorem hostStore_mrkr {a : Nat} (ha : a < s.sizes.mlenMax) (d : Word) :
    hostStore s .mrkr a d = writeMrkr s a (lowBit d) := if_pos ha

theorem hostRead_hostStore_pix {a : Nat} (ha : a < s.sizes.pixSize) (d : Word) :
    hostRead (hostStore s .pix a d) .pix a = d &&& 0xFF#32 := by
  rw [hostStore_pix ha, hostRead_pix (by simpa using ha), readPix_writePix, if_pos rfl,
    byteWord_lowByte]

theorem hostRead_hostStore_msg {a : Nat} (ha : a < s.sizes.msgMax) (d : Word) :
    hostRead (hostStore s .msg a d) .msg a = d &&& 0xFF#32 := by
  rw [hostStore_msg ha, hostRead_msg (by simpa using ha), readMsg_writeMsg, if_pos rfl,
    byteWord_lowByte]

theorem hostRead_hostStore_bits {a : Nat} (ha : a < s.sizes.bitsMax) (d : Word) :
    hostRead (hostStore s .bits a d) .bits a = d &&& 1#32 := by
  rw [hostStore_bits ha, hostRead_bits (by simpa using ha), readBit_writeBit, if_pos rfl,
    bitWord_lowBit]

theorem hostRead_hostStore_mrkr {a : Nat} (ha : a < s.sizes.mlenMax) (d : Word) :
    hostRead (hostStore s .mrkr a d) .mrkr a = d &&& 1#32 := by
  rw [hostStore_mrkr ha, hostRead_mrkr (by simpa using ha), readMrkr_writeMrkr, if_pos rfl,
    bitWord_lowBit]

/-- Settles O8, register by register and memory by memory. -/
theorem hostAccessRights : Obligations.HostAccessRights := by
  intro s a d
  have hregs : hostRead s .reg 0 = s.regs.cmd ∧ hostRead s .reg 1 = s.regs.result ∧
      hostRead s .reg 2 = s.regs.width ∧ hostRead s .reg 3 = s.regs.height ∧
      hostRead s .reg 4 = s.regs.nch ∧ hostRead s .reg 5 = s.regs.chsel ∧
      hostRead s .reg 6 = s.regs.mlen ∧ hostRead s .reg 7 = s.regs.msgLen ∧
      hostRead s .reg 8 = s.regs.bitsLen ∧ hostRead s .reg 9 = s.regs.outLen ∧
      hostRead s .reg 10 = s.regs.cur := ⟨rfl, rfl, rfl, rfl, rfl, rfl, rfl, rfl, rfl, rfl, rfl⟩
  exact ⟨hregs, hostRead_pix, hostRead_msg, hostRead_out,
    fun ha => (hostRead_mrkr ha).trans (bitWord_eq _),
    fun ha => (hostRead_bits ha).trans (bitWord_eq _),
    fun ha => reserved_register ha d, fun ha => hostWriteReg_readOnly ha d, rfl,
    fun hlo hhi => hostReadReg_hostWriteReg hlo hhi d, fun ha => hostRead_hostStore_pix ha d,
    fun ha => hostRead_hostStore_msg ha d, fun ha => hostRead_hostStore_mrkr ha d,
    fun ha => hostRead_hostStore_bits ha d⟩

/-! ### A write to `CMD` (R22) -/

/-- A step that takes a host write to `CMD` issues the command. -/
theorem step_writeCmd (s : State) (w : Word) (rest : List HostEvent) :
    step { s with script := .write .reg 0 w :: rest } =
      issueCommand { s with script := rest } w := rfl

theorem issueCommand_of_decode {w : Word} {i : Instr} (h : decode w = .ok i) :
    issueCommand s w = exec i (setCmd s w) := by
  simp [issueCommand, h]

theorem decode_of_decodeTableWord {nbits w : Nat} {i : Instr}
    (h : decodeTableWord nbits w = some i) : decode (BitVec.ofNat 32 (w % 2 ^ nbits)) = .ok i := by
  unfold decodeTableWord at h
  split at h
  next j hj => cases h; exact hj
  next => cases h

/-- Settles O4. -/
theorem stepRunsTheDecodedCommand : Obligations.StepRunsTheDecodedCommand := by
  intro s w i rest h
  rw [step_writeCmd, issueCommand_of_decode h]
  rfl

/-- Settles O5: `withFetchWord` puts a write of the word to `CMD` in front of the script. -/
theorem fetchedWordRunsNext : Obligations.FetchedWordRunsNext := fun s _ _ i h =>
  stepRunsTheDecodedCommand s _ i s.script (decode_of_decodeTableWord h)

/-! ### Reset (R42) -/

/-- Where nothing is listed, `MRKR` reads 0 and the other memories read as their free values. -/
theorem reads_of_nothing_listed (hpix : s.pix = []) (hmsg : s.msg = []) (hmrkr : s.mrkr = [])
    (hbits : s.bits = []) (hout : s.out = []) (a : Nat) :
    readMrkr s a = false ∧ readPix s a = Config.pixAtReset s.resets a ∧
      readMsg s a = Config.msgAtReset s.resets a ∧ readBit s a = Config.bitsAtReset s.resets a ∧
      readOut s a = Config.outAtReset s.resets a := by
  simp only [readMrkr, readPix, readMsg, readBit, readOut, hpix, hmsg, hmrkr, hbits, hout]
  exact ⟨rfl, rfl, rfl, rfl, rfl⟩

/-- Settles O10: `State.reset` and the reset event both leave the reset registers and list
nothing. -/
theorem resetLeavesTheResetValues : Obligations.ResetLeavesTheResetValues := by
  rintro s t (rfl | h)
  · exact ⟨rfl, reads_of_nothing_listed rfl rfl rfl rfl rfl⟩
  · obtain rfl : applyReset s = t := Host.Outcome.next.inj h
    exact ⟨rfl, reads_of_nothing_listed rfl rfl rfl rfl rfl⟩

end Sys2Proof.Machine
end

section
/-! PROOFS. Where the scans of `EMB`, `ENC`, `EXT` and `DEC` leave the cursor (R31). -/

namespace Sys2Proof.Machine

variable {s t : State}

/-- How a legal encoding over `cap` pixels ends: with `OK` every bit is embedded and counted, with
`CAPACITY_ERROR` no pixel was visited. -/
def EncodingEnd (cap : Nat) (t : State) : Prop :=
  (t.regs.result = 1#32 ∧ curOf t = bitsLenOf t ∧ bitsLenOf t ≤ cap) ∨
    (t.regs.result = 2#32 ∧ curOf t = 0)

/-- How a legal decoding over `cap` pixels with a marker of `M` bits ends: with `OK` the cursor
counts the kept bits and the marker, with `NOT_FOUND` the whole grid. -/
def DecodingEnd (cap M : Nat) (t : State) : Prop :=
  (t.regs.result = 1#32 ∧ curOf t = bitsLenOf t + M ∧ curOf t ≤ cap) ∨
    (t.regs.result = 3#32 ∧ curOf t = cap)

/-- The encoder's scan over the whole bit sequence counts it. -/
theorem curOf_embedScan_bitsLen (s : State) :
    curOf (embedScan (bitsLenOf s) 0 (setCur s 0)) = bitsLenOf s := by
  have hcur := embedScan_cur (bitsLenOf s) 0 (setCur s 0) rfl
  rw [curOf, hcur, Nat.zero_add]
  exact Nat.mod_eq_of_lt s.regs.bitsLen.isLt

theorem encodingEnd_embBody (s : State) : EncodingEnd (widthOf s * heightOf s) (embBody s) := by
  unfold embBody
  split
  next hfits =>
    have hlen : bitsLenOf s ≤ widthOf s * heightOf s := by simpa [fits] using hfits
    exact .inl ⟨rfl, by simpa using curOf_embedScan_bitsLen s, by simpa using hlen⟩
  next => exact .inr ⟨rfl, rfl⟩

/-- The decoder's scan over `v` pixels counts them. -/
theorem curOf_scanned {v : Nat} (hv : v < 2 ^ 32) : curOf (scanned (setCur s 0) 0 v) = v := by
  rw [curOf, scanned_setCur_cur]
  exact Nat.mod_eq_of_lt hv

theorem decodingEnd_extBody (hM : 1 ≤ mlenOf s) (hcap : capacityOf s < 2 ^ 32) :
    DecodingEnd (capacityOf s) (mlenOf s) (extBody s) := by
  cases hfm : firstMatch (markerSeq s) (gridLsbs s) with
  | none =>
    rw [extBody_notFound hfm]
    exact .inr ⟨rfl, by simpa using curOf_scanned hcap⟩
  | some f =>
    obtain ⟨hMf, hf, -⟩ := firstMatch_some hfm
    rw [markerSeq_length] at hMf
    rw [gridLsbs_length] at hf
    have hcur : curOf (scanned (setCur s 0) 0 f) = f := curOf_scanned (by omega)
    have hlen : bitsLenOf (setBitsLen (scanned (setCur s 0) 0 f) (f - mlenOf s)) = f - mlenOf s :=
      bitsLenOf_setBitsLen _ (by omega)
    rw [extBody_found hM hfm]
    refine .inl ⟨rfl, ?_, ?_⟩
    · rw [raise_curOf, raise_bitsLenOf, setBitsLen_curOf, hcur, hlen]
      omega
    · rw [raise_curOf, setBitsLen_curOf, hcur]
      exact hf

/-- What `DEC` does after the body of `EXT` touches neither the result nor the counts of the
scan. -/
theorem decTail_scan_registers (s : State) :
    (decTail s).regs.result = s.regs.result ∧ curOf (decTail s) = curOf s ∧
      bitsLenOf (decTail s) = bitsLenOf s := by
  unfold decTail
  split
  next hok => exact ⟨by simp [hok], by simp [b2tBody], by simp [b2tBody]⟩
  next => exact ⟨rfl, rfl, rfl⟩

theorem decodingEnd_decTail {cap M : Nat} (h : DecodingEnd cap M s) :
    DecodingEnd cap M (decTail s) := by
  obtain ⟨hres, hcur, hlen⟩ := decTail_scan_registers s
  unfold DecodingEnd
  rwa [hres, hcur, hlen]

/-- A command that checks its configuration and did not end with `ERR_CFG` found it legal. -/
theorem accepted_of_result_ne {p : Prop} [Decidable p] {u : State}
    (h : (if p then .next u else .next (raise .errCfg s) : Host.Outcome State Fault Refusal) =
      .next t) (hres : t.regs.result ≠ 5#32) : p ∧ u = t := by
  split at h
  next hp => exact ⟨hp, Host.Outcome.next.inj h⟩
  next => cases h; exact absurd rfl hres

/-- An encoding not refused ends as `EncodingEnd` says. -/
theorem encodingEnd_exec {i : Instr} (hi : i = .emb ∨ i = .enc) (h : exec i s = .next t)
    (hres : t.regs.result ≠ 5#32) : EncodingEnd (widthOf s * heightOf s) t := by
  obtain rfl | rfl := hi
  · obtain ⟨-, rfl⟩ := accepted_of_result_ne h hres
    exact encodingEnd_embBody s
  · obtain ⟨-, rfl⟩ := accepted_of_result_ne h hres
    simpa [mrkBody, t2bBody] using encodingEnd_embBody (mrkBody (t2bBody s))

/-- A decoding not refused ends as `DecodingEnd` says. -/
theorem decodingEnd_exec {i : Instr} (hi : i = .ext ∨ i = .dec) (hlegal : s.sizes.Legal)
    (h : exec i s = .next t) (hres : t.regs.result ≠ 5#32) :
    DecodingEnd (widthOf s * heightOf s) (mlenOf s) t := by
  have hbody (hc : ScanOK s) : DecodingEnd (widthOf s * heightOf s) (mlenOf s) (extBody s) := by
    obtain ⟨⟨hdim, -⟩, ⟨hM, -⟩, -⟩ := hc
    exact decodingEnd_extBody hM (capacity_lt_of_dimOK hlegal hdim)
  obtain rfl | rfl := hi
  · obtain ⟨hc, rfl⟩ := accepted_of_result_ne h hres
    exact hbody hc
  · obtain ⟨hc, rfl⟩ := accepted_of_result_ne h hres
    exact decodingEnd_decTail (hbody hc)

/-- Settles O54 from how an encoding and how a decoding end. -/
theorem cursorAfterAScan : Obligations.CursorAfterAScan := by
  intro i s t hi hlegal h hres
  have hcases : (i = .emb ∨ i = .enc) ∨ i = .ext ∨ i = .dec := by rwa [or_assoc]
  obtain henc | hdec := hcases
  · have hnot : ¬(i = .ext ∨ i = .dec) := by obtain rfl | rfl := henc <;> simp
    obtain ⟨hr, hcur, hle⟩ | ⟨hr, hcur⟩ := encodingEnd_exec henc h hres
    · simp [hr, hcur, hle, hnot]
    · simp [hr, hcur]
  · have hnot : ¬(i = .emb ∨ i = .enc) := by obtain rfl | rfl := hdec <;> simp
    obtain ⟨hr, hcur, hle⟩ | ⟨hr, hcur⟩ := decodingEnd_exec hdec hlegal h hres
    · rw [hcur] at hle
      simp [hr, hcur, hle, hnot]
    · simp [hr, hcur]

end Sys2Proof.Machine
end

section
/-! PROOFS. No command reads `RESULT` before it has written it (R23, R230). -/

namespace Sys2Proof.Machine

/-- The state with another code in `RESULT`. -/
def withResult (s : State) (r : Word) : State := { s with regs := { s.regs with result := r } }

variable (s : State) (r : Word)

/-! ### What does not read `RESULT` -/

@[simp] theorem widthOf_withResult : widthOf (withResult s r) = widthOf s := rfl

@[simp] theorem heightOf_withResult : heightOf (withResult s r) = heightOf s := rfl

@[simp] theorem mlenOf_withResult : mlenOf (withResult s r) = mlenOf s := rfl

@[simp] theorem msgLenOf_withResult : msgLenOf (withResult s r) = msgLenOf s := rfl

@[simp] theorem bitsLenOf_withResult : bitsLenOf (withResult s r) = bitsLenOf s := rfl

@[simp] theorem capacityOf_withResult : capacityOf (withResult s r) = capacityOf s := rfl

@[simp] theorem msgSeq_withResult : msgSeq (withResult s r) = msgSeq s := rfl

@[simp] theorem bitsSeq_withResult : bitsSeq (withResult s r) = bitsSeq s := rfl

@[simp] theorem markerSeq_withResult : markerSeq (withResult s r) = markerSeq s := rfl

@[simp] theorem matchedAt_withResult (n : Nat) : matchedAt (withResult s r) n = matchedAt s n := rfl

/-! ### Operations that leave `RESULT` alone -/

@[simp] theorem setBitsLen_withResult (n : Nat) :
    setBitsLen (withResult s r) n = withResult (setBitsLen s n) r := rfl

@[simp] theorem setOutLen_withResult (n : Nat) :
    setOutLen (withResult s r) n = withResult (setOutLen s n) r := rfl

@[simp] theorem setCur_withResult (n : Nat) :
    setCur (withResult s r) n = withResult (setCur s n) r := rfl

@[simp] theorem extractStep_withResult (p : Nat) :
    extractStep (withResult s r) p = withResult (extractStep s p) r := rfl

@[simp] theorem writeBits_withResult (a : Nat) (l : List Bit) :
    writeBits (withResult s r) a l = withResult (writeBits s a l) r := by
  induction l generalizing s a with
  | nil => rfl
  | cons b l ih => exact ih (writeBit s a b) (a + 1)

@[simp] theorem writeOuts_withResult (a : Nat) (l : List Byte) :
    writeOuts (withResult s r) a l = withResult (writeOuts s a l) r := by
  induction l generalizing s a with
  | nil => rfl
  | cons b l ih => exact ih (writeOut s a b) (a + 1)

@[simp] theorem embedScan_withResult (k p : Nat) :
    embedScan k p (withResult s r) = withResult (embedScan k p s) r := by
  induction k generalizing p s with
  | zero => rfl
  | succ k ih => exact ih (embedStep s p) (p + 1)

theorem t2bBody_withResult : t2bBody (withResult s r) = withResult (t2bBody s) r := by
  simp [t2bBody]

theorem mrkBody_withResult : mrkBody (withResult s r) = withResult (mrkBody s) r := by
  simp [mrkBody]

theorem b2tBody_withResult : b2tBody (withResult s r) = withResult (b2tBody s) r := by
  simp [b2tBody]

/-! ### Operations that overwrite `RESULT` -/

@[simp] theorem raise_withResult (k : ResultKind) : raise k (withResult s r) = raise k s := rfl

theorem embBody_withResult : embBody (withResult s r) = embBody s := by
  simp [embBody]

@[simp] theorem extractScan_withResult (k p : Nat) :
    extractScan k p (withResult s r) = extractScan k p s := by
  induction k generalizing p s with
  | zero => rfl
  | succ k ih => simp [extractScan, ih]

theorem extBody_withResult : extBody (withResult s r) = extBody s := by
  simp [extBody]

/-- Two outcomes with the same check and the same refusal agree when their accepted sides do. -/
theorem checked_congr {p : Prop} [Decidable p] {u v : State} (h : u = v) :
    (if p then .next u else .next (raise .errCfg (withResult s r)) :
      Host.Outcome State Fault Refusal) = if p then .next v else .next (raise .errCfg s) := by
  rw [h, raise_withResult]

/-- Settles O53: each command's check does not look at `RESULT`, and its body overwrites it. -/
theorem resultIsNotSticky : Obligations.ResultIsNotSticky := by
  intro i s r
  show exec i (withResult s r) = exec i s
  cases i with
  | t2b => exact checked_congr s r (by rw [t2bBody_withResult, raise_withResult])
  | b2t => exact checked_congr s r (by rw [b2tBody_withResult, raise_withResult])
  | mrk => exact checked_congr s r (by rw [mrkBody_withResult, raise_withResult])
  | cap => rfl
  | emb => exact checked_congr s r (embBody_withResult s r)
  | enc =>
    exact checked_congr s r (by rw [t2bBody_withResult, mrkBody_withResult, embBody_withResult])
  | ext => exact checked_congr s r (extBody_withResult s r)
  | dec => exact checked_congr s r (by rw [extBody_withResult])

end Sys2Proof.Machine
end

section
/-! PROOFS. The host operations the lines of a script stand for (R103, R104). -/

namespace Sys2Proof.Machine

/-- A run writes the words one after another, from its first address on. -/
theorem writeRun_eq_zipIdx (sp : Space) (a : Nat) (ds : List Word) :
    writeRun sp a ds = ds.zipIdx.map (fun c => .write sp (a + c.2) c.1) := by
  induction ds generalizing a with
  | nil => rfl
  | cons d ds ih =>
    simp [writeRun, ih, List.zipIdx_cons, List.zipIdx_succ, Nat.add_assoc, Nat.add_comm 1]

/-- A run of one repeated word. -/
theorem writeRun_replicate (sp : Space) (a n : Nat) (v : Word) :
    writeRun sp a (List.replicate n v) = (List.range n).map (fun i => .write sp (a + i) v) := by
  rw [writeRun_eq_zipIdx]
  exact List.ext_getElem (by simp) (by simp)

/-- A run of cells handed over as words by `f`. -/
theorem writeRun_map {α : Type} (sp : Space) (f : α → Word) (l : List α) :
    writeRun sp 0 (l.map f) = l.zipIdx.map (fun c => .write sp c.2 (f c.1)) := by
  simp [writeRun_eq_zipIdx, List.zipIdx_map]

/-- A text `ORD` accepts has no codepoint above 255. -/
theorem codepoints_le_of_ordinalMap {cs : List Char} {m : List Byte} (h : ordinalMap cs = some m) :
    ∀ c ∈ cs, c.toNat ≤ 255 := by
  induction cs generalizing m with
  | nil => simp
  | cons c cs ih =>
    rw [ordinalMap] at h
    split at h
    next hc =>
      obtain ⟨m', hm', -⟩ := Option.map_eq_some_iff.mp h
      exact List.forall_mem_cons.mpr ⟨hc, ih hm'⟩
    next => cases h

/-- The lines that name a space, which must not be `REG` (R103, R104). -/
theorem expandLine_space {sp : Space} (h : sp ≠ .reg) (a n : Nat) (v : Word) (vs : List Word) :
    expandLine (.st sp a v) = some [.write sp a v] ∧
      expandLine (.ld sp a) = some [.read sp a] ∧
      expandLine (.fill sp a n v) = some (writeRun sp a (List.replicate n v)) ∧
      expandLine (.bytes sp a vs) = some (writeRun sp a vs) := by
  simp [expandLine, ScriptLine.wellFormed, h]

theorem expandLine_units (m : List Byte) : expandLine (.units m) = some (loadMessage m) := rfl

theorem expandLine_marker (p : List Bit) :
    expandLine (.marker p) = some (writeRun .mrkr 0 (p.map bitWord) ++
      [wrEvent .mlen (BitVec.ofNat 32 p.length)]) := rfl

theorem expandLine_text {cs : List Char} {m : List Byte} (h : ordinalMap cs = some m) :
    expandLine (.text cs) = some (loadMessage m) := by
  have hwf : (ScriptLine.text cs).wellFormed = true := by
    simpa [ScriptLine.wellFormed] using codepoints_le_of_ordinalMap h
  simp [expandLine, hwf, h]

/-- Settles O57, line by line. -/
theorem scriptLinesExpand : Obligations.ScriptLinesExpand := by
  refine ⟨⟨rfl, rfl, rfl, rfl, rfl, rfl, rfl, rfl, rfl, rfl, rfl⟩, fun _ _ => rfl, fun _ => rfl,
    fun sp a v h => ?st, fun _ => rfl, fun _ _ _ => rfl, rfl, rfl, fun sp a n v h => ?fill,
    fun sp a vs h => ?bytes, fun m => ?units, fun cs m h => ?text, fun p => ?marker⟩
  case st =>
    obtain ⟨hst, hld, -, -⟩ := expandLine_space h a 0 v []
    exact ⟨hst, hld⟩
  case fill =>
    obtain ⟨-, -, hfill, -⟩ := expandLine_space h a n v []
    rw [hfill, writeRun_replicate]
  case bytes =>
    obtain ⟨-, -, -, hbytes⟩ := expandLine_space h a 0 0 vs
    rw [hbytes, writeRun_eq_zipIdx]
  case units =>
    rw [expandLine_units, loadMessage, writeRun_map]
    rfl
  case text => rw [expandLine_text h, expandLine_units]
  case marker =>
    rw [expandLine_marker, writeRun_map]
    simp only [bitWord_eq]
    rfl

end Sys2Proof.Machine
end

section
/-! PROOFS. The host's accesses to the cells of the six spaces: what a step does with one (R62, R73),
that a store changes no other cell (R61), and that none beyond the end of a space reaches a cell
(R64). -/

namespace Sys2Proof.Machine

variable {s : State}

/-! ### Beyond the end of a space (R64, log 8) -/

theorem pix_beyond_end {a : Nat} (ha : s.sizes.pixSize ≤ a) (d : Word) :
    hostRead s .pix a = 0#32 ∧ hostStore s .pix a d = s :=
  ⟨if_neg (Nat.not_lt.mpr ha), if_neg (Nat.not_lt.mpr ha)⟩

theorem msg_beyond_end {a : Nat} (ha : s.sizes.msgMax ≤ a) (d : Word) :
    hostRead s .msg a = 0#32 ∧ hostStore s .msg a d = s :=
  ⟨if_neg (Nat.not_lt.mpr ha), if_neg (Nat.not_lt.mpr ha)⟩

/-- The host writes no cell of `OUT`, so only the read looks at the bound. -/
theorem out_beyond_end {a : Nat} (ha : s.sizes.outMax ≤ a) (d : Word) :
    hostRead s .out a = 0#32 ∧ hostStore s .out a d = s :=
  ⟨if_neg (Nat.not_lt.mpr ha), rfl⟩

theorem bits_beyond_end {a : Nat} (ha : s.sizes.bitsMax ≤ a) (d : Word) :
    hostRead s .bits a = 0#32 ∧ hostStore s .bits a d = s :=
  ⟨if_neg (Nat.not_lt.mpr ha), if_neg (Nat.not_lt.mpr ha)⟩

theorem mrkr_beyond_end {a : Nat} (ha : s.sizes.mlenMax ≤ a) (d : Word) :
    hostRead s .mrkr a = 0#32 ∧ hostStore s .mrkr a d = s :=
  ⟨if_neg (Nat.not_lt.mpr ha), if_neg (Nat.not_lt.mpr ha)⟩

/-- Settles O9, one lemma for each memory. -/
theorem accessBeyondTheEndReachesNoCell : Obligations.AccessBeyondTheEndReachesNoCell :=
  fun _ _ d => ⟨fun ha => pix_beyond_end ha d, fun ha => msg_beyond_end ha d,
    fun ha => out_beyond_end ha d, fun ha => bits_beyond_end ha d, fun ha => mrkr_beyond_end ha d⟩

/-! ### A store and the other cells (R61) -/

/-- A host write to a register keeps every other register. -/
theorem hostReadReg_hostWriteReg_of_ne {a a' : Nat} (h : a' ≠ a) (d : Word) :
    hostReadReg (hostWriteReg s a d) a' = hostReadReg s a' := by
  unfold hostWriteReg
  split <;> (unfold hostReadReg; split <;> trivial)

/-- A store keeps every cell of the other spaces. -/
theorem hostRead_hostStore_other_space {sp sp' : Space} (h : sp' ≠ sp) (a a' : Nat) (d : Word) :
    hostRead (hostStore s sp a d) sp' a' = hostRead s sp' a' := by
  cases sp with
  | reg =>
    simp only [hostStore]
    rw [hostWriteReg_frame]
    cases sp' <;> trivial
  | out => rfl
  | pix | msg | bits | mrkr =>
    simp only [hostStore]
    split
    · cases sp' <;> trivial
    · rfl

/-- A store keeps every other cell of its own space. -/
theorem hostRead_hostStore_other_address {a a' : Nat} (h : a' ≠ a) (sp : Space) (d : Word) :
    hostRead (hostStore s sp a d) sp a' = hostRead s sp a' := by
  cases sp with
  | reg => exact hostReadReg_hostWriteReg_of_ne h d
  | out => rfl
  | pix | msg | bits | mrkr =>
    simp only [hostStore]
    split <;> simp [hostRead, h]

/-- Settles O7: another cell is in another space or at another address of the same space. -/
theorem hostWriteChangesOnlyItsCell : Obligations.HostWriteChangesOnlyItsCell := by
  intro s sp a d sp' a' hcell
  by_cases hsp : sp' = sp
  · subst hsp
    exact hostRead_hostStore_other_address (fun ha => hcell (by rw [ha])) sp' d
  · exact hostRead_hostStore_other_space hsp a a' d

/-! ### A step that takes a host operation (R62, R73, log 1) -/

theorem step_of_script_nil (h : s.script = []) : step s = .next s := by
  simp [step, h]

/-- A host write to any cell but `CMD` stores. -/
theorem hostWrite_eq_hostStore {sp : Space} {a : Nat} (h : sp ≠ .reg ∨ a ≠ 0) (d : Word) :
    hostWrite s sp a d = .next (hostStore s sp a d) :=
  if_neg (not_and_or.mpr h)

/-- A host read does not look at the operations still pending. -/
theorem hostRead_withScript (s : State) (rest : List HostEvent) (sp : Space) (a : Nat) :
    hostRead { s with script := rest } sp a = hostRead s sp a := by
  cases sp <;> rfl

/-- Settles O6, one clause for each host operation but a write to `CMD`. -/
theorem stepDoesTheHostsNextOperation : Obligations.StepDoesTheHostsNextOperation := by
  refine ⟨fun _ => step_of_script_nil, fun s sp a rest => ?_, fun _ _ _ d _ h =>
    hostWrite_eq_hostStore h d, fun _ _ => rfl⟩
  rw [← hostRead_withScript s rest]
  rfl

end Sys2Proof.Machine
end

section
/-! PROOFS. The layout of the pixel grid in `PIX` (R65, R66). Both levels of it, rows of pixels and
pixels of channels, put digit `x` of `w` behind number `y`: `y * w + x`. -/

namespace Sys2Proof.Machine

/-- The channel is to a pixel what the column is to a row. -/
theorem pixAddr_eq_pixelIndex (n p c : Nat) : pixAddr n p c = pixelIndex n c p := rfl

theorem pixelIndex_lt {w h x y : Nat} (hx : x < w) (hy : y < h) : pixelIndex w x y < w * h := by
  calc y * w + x
    _ < (y + 1) * w := by rw [Nat.succ_mul]; exact Nat.add_lt_add_left hx _
    _ ≤ h * w := Nat.mul_le_mul_right w hy
    _ = w * h := Nat.mul_comm h w

theorem pixelIndex_mod {w x : Nat} (hx : x < w) (y : Nat) : pixelIndex w x y % w = x := by
  rw [pixelIndex, Nat.mul_add_mod', Nat.mod_eq_of_lt hx]

theorem pixelIndex_div {w x : Nat} (hx : x < w) (y : Nat) : pixelIndex w x y / w = y := by
  rw [pixelIndex, Nat.mul_comm, Nat.mul_add_div (Nat.zero_lt_of_lt hx), Nat.div_eq_of_lt hx,
    Nat.add_zero]

/-- Both digits can be read back, so both are determined. -/
theorem pixelIndex_inj {w x y x' y' : Nat} (hx : x < w) (hx' : x' < w)
    (h : pixelIndex w x y = pixelIndex w x' y') : x = x' ∧ y = y' := by
  have hmod := congrArg (· % w) h
  have hdiv := congrArg (· / w) h
  simp only [pixelIndex_mod hx, pixelIndex_mod hx'] at hmod
  simp only [pixelIndex_div hx, pixelIndex_div hx'] at hdiv
  exact ⟨hmod, hdiv⟩

/-- Settles O55 from the layout's two levels. -/
theorem gridCellsAreDistinctAndInsidePix : Obligations.GridCellsAreDistinctAndInsidePix := by
  rintro s ⟨-, hN, hC, hfit⟩
  refine ⟨by omega, fun x y c hx hy hc => ?_⟩
  have hpixel := pixelIndex_lt hx hy
  have hcell : pixAddr (nchOf s) (pixelIndex (widthOf s) x y) c < s.sizes.pixSize := by
    rw [pixAddr_eq_pixelIndex]
    have := pixelIndex_lt hc hpixel
    rw [Nat.mul_comm] at this
    exact Nat.lt_of_lt_of_le this hfit
  refine ⟨hcell, hpixel, pixelIndex_mod hx y, pixelIndex_div hx y,
    fun x' y' c' hx' _ hc' heq => ?_⟩
  obtain ⟨hchannel, hindex⟩ := pixelIndex_inj hc hc' heq
  obtain ⟨hcol, hrow⟩ := pixelIndex_inj hx hx' hindex
  exact ⟨hcol, hrow, hchannel⟩

end Sys2Proof.Machine
end

section
/-! PROOFS. What each command writes (R71): the body every command runs when its configuration is
legal, and for each body the fields it leaves alone. -/

namespace Sys2Proof.Machine

variable {s t : State}

/-! ### A command is a check and a body -/

/-- What a command does when its configuration is legal, `RESULT` included. -/
def commandBody : Instr → State → State
  | .t2b, s => raise .ok (t2bBody s)
  | .b2t, s => raise .ok (b2tBody s)
  | .mrk, s => raise .ok (mrkBody s)
  | .cap, s => raise (if fits (bitsLenOf s) (widthOf s) (heightOf s) then .ok else .capacityError) s
  | .emb, s => embBody s
  | .enc, s => embBody (mrkBody (t2bBody s))
  | .ext, s => extBody s
  | .dec, s => decTail (extBody s)

theorem exec_of_commandOK {i : Instr} (h : CommandOK i s) : exec i s = .next (commandBody i s) := by
  cases i with
  | cap =>
    refine (if_pos h).trans ?_
    rw [commandBody]
    split <;> rfl
  | t2b | b2t | mrk | emb | enc | ext | dec => exact if_pos h

theorem exec_of_not_commandOK {i : Instr} (h : ¬ CommandOK i s) :
    exec i s = .next (raise .errCfg s) := by
  cases i <;> exact if_neg h

/-- The two ways a command can end: its body, or the refusal. -/
theorem exec_cases {i : Instr} (h : exec i s = .next t) :
    (CommandOK i s ∧ t = commandBody i s) ∨ (¬ CommandOK i s ∧ t = raise .errCfg s) := by
  by_cases hok : CommandOK i s
  · rw [exec_of_commandOK hok] at h
    exact .inl ⟨hok, (Host.Outcome.next.inj h).symm⟩
  · rw [exec_of_not_commandOK hok] at h
    exact .inr ⟨hok, (Host.Outcome.next.inj h).symm⟩

/-! ### Frames of the bodies -/

theorem t2bBody_frame (s : State) :
    t2bBody s = { s with bits := (t2bBody s).bits,
                         regs := { s.regs with bitsLen := (t2bBody s).regs.bitsLen } } := by
  unfold t2bBody
  rw [writeBits_frame]
  rfl

theorem mrkBody_frame (s : State) :
    mrkBody s = { s with bits := (mrkBody s).bits,
                         regs := { s.regs with bitsLen := (mrkBody s).regs.bitsLen } } := by
  unfold mrkBody
  rw [writeBits_frame]
  rfl

theorem b2tBody_frame (s : State) :
    b2tBody s = { s with out := (b2tBody s).out,
                         regs := { s.regs with outLen := (b2tBody s).regs.outLen } } := by
  unfold b2tBody
  rw [writeOuts_frame]
  rfl

theorem embBody_frame (s : State) :
    embBody s = { s with pix := (embBody s).pix,
                         regs := { s.regs with result := (embBody s).regs.result,
                                               cur := (embBody s).regs.cur } } := by
  unfold embBody
  split
  next => rw [embedScan_frame]; rfl
  next => rfl

theorem extractScan_frame (k p : Nat) (s : State) :
    extractScan k p s =
      { s with bits := (extractScan k p s).bits,
               regs := { s.regs with result := (extractScan k p s).regs.result,
                                     bitsLen := (extractScan k p s).regs.bitsLen,
                                     cur := (extractScan k p s).regs.cur } } := by
  induction k generalizing p s with
  | zero => rfl
  | succ k ih =>
    unfold extractScan
    split
    next => rfl
    next => rw [ih]; rfl

theorem extBody_frame (s : State) :
    extBody s =
      { s with bits := (extBody s).bits,
               regs := { s.regs with result := (extBody s).regs.result,
                                     bitsLen := (extBody s).regs.bitsLen,
                                     cur := (extBody s).regs.cur } } := by
  unfold extBody
  rw [extractScan_frame]
  rfl

/-- What `DEC` does after the body of `EXT` never changes the code that body left (R200). -/
theorem decTail_frame (s : State) :
    decTail s = { s with out := (decTail s).out,
                         regs := { s.regs with outLen := (decTail s).regs.outLen } } := by
  unfold decTail
  split
  next hok => rw [b2tBody_frame, raise, ← hok]
  next => rfl

/-- No command writes a field that is not named here. -/
theorem commandBody_frame (i : Instr) (s : State) :
    commandBody i s =
      { s with pix := (commandBody i s).pix, bits := (commandBody i s).bits,
               out := (commandBody i s).out,
               regs := { s.regs with result := (commandBody i s).regs.result,
                                     bitsLen := (commandBody i s).regs.bitsLen,
                                     outLen := (commandBody i s).regs.outLen,
                                     cur := (commandBody i s).regs.cur } } := by
  cases i with
  | t2b => rw [commandBody, t2bBody_frame]; rfl
  | b2t => rw [commandBody, b2tBody_frame]; rfl
  | mrk => rw [commandBody, mrkBody_frame]; rfl
  | cap => rfl
  | emb => rw [commandBody, embBody_frame]
  | enc => rw [commandBody, embBody_frame, mrkBody_frame, t2bBody_frame]
  | ext => rw [commandBody, extBody_frame]
  | dec => rw [commandBody, decTail_frame, extBody_frame]

/-! ### The columns of the table of R71 -/

theorem commandBody_pix {i : Instr} (hemb : i ≠ .emb) (henc : i ≠ .enc) (s : State) :
    (commandBody i s).pix = s.pix := by
  cases i with
  | t2b => rw [commandBody, t2bBody_frame]; rfl
  | b2t => rw [commandBody, b2tBody_frame]; rfl
  | mrk => rw [commandBody, mrkBody_frame]; rfl
  | cap => rfl
  | emb => exact absurd rfl hemb
  | enc => exact absurd rfl henc
  | ext => rw [commandBody, extBody_frame]
  | dec => rw [commandBody, decTail_frame, extBody_frame]

theorem commandBody_out {i : Instr} (hb2t : i ≠ .b2t) (hdec : i ≠ .dec) (s : State) :
    (commandBody i s).out = s.out ∧ (commandBody i s).regs.outLen = s.regs.outLen := by
  cases i with
  | t2b => rw [commandBody, t2bBody_frame]; exact ⟨rfl, rfl⟩
  | b2t => exact absurd rfl hb2t
  | mrk => rw [commandBody, mrkBody_frame]; exact ⟨rfl, rfl⟩
  | cap => exact ⟨rfl, rfl⟩
  | emb => rw [commandBody, embBody_frame]; exact ⟨rfl, rfl⟩
  | enc => rw [commandBody, embBody_frame, mrkBody_frame, t2bBody_frame]; exact ⟨rfl, rfl⟩
  | ext => rw [commandBody, extBody_frame]; exact ⟨rfl, rfl⟩
  | dec => exact absurd rfl hdec

theorem commandBody_bits {i : Instr} (hi : i = .b2t ∨ i = .cap ∨ i = .emb) (s : State) :
    (commandBody i s).bits = s.bits ∧ (commandBody i s).regs.bitsLen = s.regs.bitsLen := by
  obtain rfl | rfl | rfl := hi
  · rw [commandBody, b2tBody_frame]; exact ⟨rfl, rfl⟩
  · exact ⟨rfl, rfl⟩
  · rw [commandBody, embBody_frame]; exact ⟨rfl, rfl⟩

theorem commandBody_cur {i : Instr} (hi : i = .t2b ∨ i = .b2t ∨ i = .mrk ∨ i = .cap) (s : State) :
    (commandBody i s).regs.cur = s.regs.cur := by
  obtain rfl | rfl | rfl | rfl := hi
  · rw [commandBody, t2bBody_frame]; rfl
  · rw [commandBody, b2tBody_frame]; rfl
  · rw [commandBody, mrkBody_frame]; rfl
  · rfl

/-- Settles O49: a refused command writes `RESULT` only; the body of an accepted one writes what its
frame names. -/
theorem commandsWriteOnlyWhatTheTableLists : Obligations.CommandsWriteOnlyWhatTheTableLists := by
  intro i s t h
  obtain ⟨-, rfl⟩ | ⟨-, rfl⟩ := exec_cases h
  · refine ⟨?_, ?_, ?_, ?_, ?_, ?_, ?_, ?_, ?_, ?_, ?_, ?_, ?_,
      fun hemb henc => commandBody_pix hemb henc s, fun hb2t hdec => commandBody_out hb2t hdec s,
      fun hi => commandBody_bits hi s, fun hi => commandBody_cur hi s⟩
    all_goals rw [commandBody_frame]
  · exact ⟨rfl, rfl, rfl, rfl, rfl, rfl, rfl, rfl, rfl, rfl, rfl, rfl, rfl, fun _ _ => rfl,
      fun _ _ => ⟨rfl, rfl⟩, fun _ => ⟨rfl, rfl⟩, fun _ => rfl⟩

end Sys2Proof.Machine
end

section
/-! PROOFS. A memory after a list of cells is written into it, as the commands write `BITS`, `OUT`
and `PIX`, where every written cell becomes a listed one. -/

namespace Sys2Proof.Machine

variable {α : Type}

/-- A memory after the cells of a list are listed in it, the first one first. -/
def Memory.insertAll (m : Memory α) (cs : List (Nat × α)) : Memory α :=
  cs.foldl (fun m c => Memory.insert m c.1 c.2) m

@[simp] theorem Memory.insertAll_nil (m : Memory α) : Memory.insertAll m [] = m := rfl

@[simp] theorem Memory.insertAll_cons (m : Memory α) (c : Nat × α) (cs : List (Nat × α)) :
    Memory.insertAll m (c :: cs) = Memory.insertAll (Memory.insert m c.1 c.2) cs := rfl

theorem Memory.insert_insert (m : Memory α) (a : Nat) (v w : α) :
    Memory.insert (Memory.insert m a v) a w = Memory.insert m a w := by
  induction m with
  | nil => simp [Memory.insert]
  | cons c m ih =>
    obtain ⟨b, x⟩ := c
    obtain hlt | rfl | hgt := Nat.lt_trichotomy a b
    · simp [Memory.insert, hlt]
    · simp [Memory.insert]
    · have hnlt : ¬ a < b := by omega
      have hne : a ≠ b := by omega
      simp [Memory.insert, hnlt, hne, ih]

/-- Each of two addresses has its own place in the list, whichever goes in first. -/
theorem Memory.insert_comm (m : Memory α) {a b : Nat} (h : a ≠ b) (v w : α) :
    Memory.insert (Memory.insert m a v) b w = Memory.insert (Memory.insert m b w) a v := by
  induction m with
  | nil => grind [Memory.insert]
  | cons c m ih => grind [Memory.insert]

/-- A cell at an address the list does not name may as well be written last. -/
theorem Memory.insertAll_insert (m : Memory α) {a : Nat} (v : α) {cs : List (Nat × α)}
    (h : ∀ c ∈ cs, c.1 ≠ a) :
    Memory.insertAll (Memory.insert m a v) cs = Memory.insert (Memory.insertAll m cs) a v := by
  induction cs generalizing m with
  | nil => rfl
  | cons c cs ih =>
    obtain ⟨hc, hcs⟩ := List.forall_mem_cons.mp h
    rw [Memory.insertAll_cons, Memory.insert_comm m hc.symm, ih _ hcs, Memory.insertAll_cons]

/-- Writing the same cells again changes nothing. -/
theorem Memory.insertAll_insertAll (m : Memory α) {cs : List (Nat × α)}
    (h : cs.Pairwise (fun c d => c.1 < d.1)) :
    Memory.insertAll (Memory.insertAll m cs) cs = Memory.insertAll m cs := by
  induction cs generalizing m with
  | nil => rfl
  | cons c cs ih =>
    obtain ⟨hc, hcs⟩ := List.pairwise_cons.mp h
    have hne : ∀ d ∈ cs, d.1 ≠ c.1 := fun d hd => (hc d hd).ne'
    rw [Memory.insertAll_cons, Memory.insertAll_cons, ← Memory.insertAll_insert _ _ hne,
      Memory.insert_insert, ih _ hcs]

/-- The values of a list in a row of cells, the first one at address `a`. -/
def cellsFrom (a : Nat) : List α → List (Nat × α)
  | [] => []
  | v :: l => (a, v) :: cellsFrom (a + 1) l

theorem le_of_mem_cellsFrom {a : Nat} {l : List α} {c : Nat × α} (h : c ∈ cellsFrom a l) :
    a ≤ c.1 := by
  induction l generalizing a with
  | nil => cases h
  | cons v l ih =>
    obtain rfl | h := List.mem_cons.mp h
    · exact Nat.le_refl a
    · exact Nat.le_of_succ_le (ih h)

theorem cellsFrom_rising (a : Nat) (l : List α) :
    (cellsFrom a l).Pairwise (fun c d => c.1 < d.1) := by
  induction l generalizing a with
  | nil => exact .nil
  | cons v l ih => exact .cons (fun c hc => le_of_mem_cellsFrom hc) (ih (a + 1))

/-! ### The three ways a command writes a memory -/

theorem writeBits_eq (s : State) (a : Nat) (l : List Bit) :
    writeBits s a l = { s with bits := Memory.insertAll s.bits (cellsFrom a l) } := by
  induction l generalizing s a with
  | nil => rfl
  | cons b l ih => exact ih (writeBit s a b) (a + 1)

theorem writeOuts_eq (s : State) (a : Nat) (l : List Byte) :
    writeOuts s a l = { s with out := Memory.insertAll s.out (cellsFrom a l) } := by
  induction l generalizing s a with
  | nil => rfl
  | cons b l ih => exact ih (writeOut s a b) (a + 1)

/-- What the encoder's scan writes over `k` pixels from `p` on, in scan order. -/
def embedCells (s : State) (p k : Nat) : List (Nat × Byte) :=
  (List.range' p k).map fun q =>
    (designatedCell s q, embedBit (readPix s (designatedCell s q)) (readBit s q))

theorem designatedCell_lt {s : State} (hN : 0 < nchOf s) {p q : Nat} (h : p < q) :
    designatedCell s p < designatedCell s q :=
  Nat.add_lt_add_right (Nat.mul_lt_mul_of_pos_right h hN) _

theorem embedCells_rising {s : State} (hN : 0 < nchOf s) (p k : Nat) :
    (embedCells s p k).Pairwise (fun c d => c.1 < d.1) :=
  List.pairwise_map.mpr
    ((List.pairwise_lt_range' (s := p) (n := k)).imp fun h => designatedCell_lt hN h)

/-- The pixels still to be visited do not see the step at pixel `p`. -/
theorem embedCells_embedStep {s : State} (hN : 0 < nchOf s) (p k : Nat) :
    embedCells (embedStep s p) (p + 1) k = embedCells s (p + 1) k := by
  refine List.map_congr_left fun q hq => ?_
  have hpq : p < q := (List.mem_range'_1.mp hq).1
  rw [embedStep_designatedCell, readPix_embedStep, if_neg (designatedCell_lt hN hpq).ne']
  rfl

theorem embedScan_pix {s : State} (hN : 0 < nchOf s) (k p : Nat) :
    (embedScan k p s).pix = Memory.insertAll s.pix (embedCells s p k) := by
  induction k generalizing p s with
  | zero => rfl
  | succ k ih =>
    have hstep := ih (s := embedStep s p) hN (p + 1)
    rw [embedCells_embedStep hN] at hstep
    exact hstep

end Sys2Proof.Machine
end

section
/-! PROOFS. Every command but `MRK` leaves the state it finds when it is run a second time (R73):
each body reads nothing it writes, or writes back what is there. -/

namespace Sys2Proof.Machine

variable {s u : State}

/-! ### `RESULT` and the bodies -/

theorem raise_raise (k k' : ResultKind) (s : State) : raise k (raise k' s) = raise k s := rfl

theorem t2bBody_raise (k : ResultKind) (s : State) : t2bBody (raise k s) = raise k (t2bBody s) :=
  t2bBody_withResult s (resultCode k)

theorem b2tBody_raise (k : ResultKind) (s : State) : b2tBody (raise k s) = raise k (b2tBody s) :=
  b2tBody_withResult s (resultCode k)

theorem embBody_raise (k : ResultKind) (s : State) : embBody (raise k s) = embBody s :=
  embBody_withResult s (resultCode k)

theorem extBody_raise (k : ResultKind) (s : State) : extBody (raise k s) = extBody s :=
  extBody_withResult s (resultCode k)

/-! ### Writing a run again -/

theorem writeBits_again {m : Memory Bit} {a : Nat} {l : List Bit}
    (h : u.bits = Memory.insertAll m (cellsFrom a l)) : writeBits u a l = u := by
  rw [writeBits_eq, h, Memory.insertAll_insertAll m (cellsFrom_rising a l), ← h]

theorem writeOuts_again {m : Memory Byte} {a : Nat} {l : List Byte}
    (h : u.out = Memory.insertAll m (cellsFrom a l)) : writeOuts u a l = u := by
  rw [writeOuts_eq, h, Memory.insertAll_insertAll m (cellsFrom_rising a l), ← h]

/-! ### `T2B`, `B2T` and the payload of `ENC` -/

theorem t2bBody_t2bBody (s : State) : t2bBody (t2bBody s) = t2bBody s := by
  have hmsg : msgSeq (t2bBody s) = msgSeq s := by simp [t2bBody]
  have hlen : msgLenOf (t2bBody s) = msgLenOf s := by simp [t2bBody]
  have hbits : (t2bBody s).bits =
      Memory.insertAll s.bits (cellsFrom 0 (textToBits (msgSeq s))) := by
    simp [t2bBody, writeBits_eq]
  calc t2bBody (t2bBody s)
    _ = setBitsLen (writeBits (t2bBody s) 0 (textToBits (msgSeq s))) (8 * msgLenOf s) := by
      rw [← hmsg, ← hlen]; rfl
    _ = setBitsLen (t2bBody s) (8 * msgLenOf s) := by rw [writeBits_again hbits]
    _ = t2bBody s := rfl

theorem b2tBody_b2tBody (s : State) : b2tBody (b2tBody s) = b2tBody s := by
  have hseq : bitsSeq (b2tBody s) = bitsSeq s := by rw [b2tBody_frame]; rfl
  have hlen : bitsLenOf (b2tBody s) = bitsLenOf s := by simp [b2tBody]
  have hout : (b2tBody s).out =
      Memory.insertAll s.out (cellsFrom 0 (bitsToText (bitsSeq s))) := by
    simp [b2tBody, writeOuts_eq]
  calc b2tBody (b2tBody s)
    _ = setOutLen (writeOuts (b2tBody s) 0 (bitsToText (bitsSeq s))) (bitsLenOf s / 8) := by
      rw [← hseq, ← hlen]; rfl
    _ = setOutLen (b2tBody s) (bitsLenOf s / 8) := by rw [writeOuts_again hout]
    _ = b2tBody s := rfl

/-- The two stages of `ENC` before the embedding write the payload as one run (R97, R176). -/
theorem mrkBody_t2bBody (h : 8 * msgLenOf s < 2 ^ 32) :
    mrkBody (t2bBody s) =
      setBitsLen (writeBits s 0 (payload (markerSeq s) (msgSeq s))) (8 * msgLenOf s + mlenOf s) := by
  have hlen : bitsLenOf (t2bBody s) = 8 * msgLenOf s := bitsLenOf_setBitsLen _ h
  have hmarker : markerSeq (t2bBody s) = markerSeq s := by simp [t2bBody]
  have hmlen : mlenOf (t2bBody s) = mlenOf s := by simp [t2bBody]
  rw [mrkBody, hlen, hmarker, hmlen, payload, writeBits_append, textToBits_length, msgSeq_length,
    Nat.zero_add, writeBits_eq, writeBits_eq (writeBits s 0 _)]
  rfl

/-- The same two stages find nothing to change in a state that already holds its payload. -/
theorem mrkBody_t2bBody_again (h : 8 * msgLenOf s < 2 ^ 32) (hmsg : msgSeq u = msgSeq s)
    (hmarker : markerSeq u = markerSeq s) (hbits : u.bits = (mrkBody (t2bBody s)).bits)
    (hlen : u.regs.bitsLen = (mrkBody (t2bBody s)).regs.bitsLen) : mrkBody (t2bBody u) = u := by
  have hL : msgLenOf u = msgLenOf s := by simpa using congrArg List.length hmsg
  have hM : mlenOf u = mlenOf s := by simpa using congrArg List.length hmarker
  rw [mrkBody_t2bBody h] at hbits hlen
  rw [setBitsLen_bits, writeBits_eq] at hbits
  rw [mrkBody_t2bBody (hL ▸ h), hmsg, hmarker, hL, hM, writeBits_again hbits, setBitsLen]
  simp only [setBitsLen_regs] at hlen
  rw [← hlen]

/-! ### The encoder's scan -/

theorem nchOf_pos (hg : GridOK s) : 0 < nchOf s := by
  obtain ⟨-, hN, -⟩ := hg
  omega

/-- Embedding a bit twice is embedding it once: cell by cell, an absorption law of `&&` and `||`. -/
theorem embedBit_embedBit (v : Byte) (b : Bit) : embedBit (embedBit v b) b = embedBit v b := by
  ext i
  simp only [embedBit, BitVec.getElem_or, BitVec.getElem_and]
  grind

/-- A second scan from pixel 0 embeds the same bits in the cells that already carry them. -/
theorem embedCells_embedScan (hN : 0 < nchOf s) (k : Nat) :
    embedCells (embedScan k 0 s) 0 k = embedCells s 0 k := by
  refine List.map_congr_left fun q hq => ?_
  have hqk : q < 0 + k := (List.mem_range'_1.mp hq).2
  rw [designatedCell_embedScan, readBit_embedScan,
    readPix_embedScan_inside k 0 s hN q (Nat.zero_le q) hqk, embedBit_embedBit]

theorem embedScan_again (hN : 0 < nchOf s) (hcur : s.regs.cur = 0#32) (k : Nat) :
    embedScan k 0 (setCur (embedScan k 0 s) 0) = embedScan k 0 s := by
  have hpix : (embedScan k 0 (setCur (embedScan k 0 s) 0)).pix = (embedScan k 0 s).pix := by
    have hcells : embedCells (setCur (embedScan k 0 s) 0) 0 k = embedCells s 0 k :=
      embedCells_embedScan hN k
    rw [embedScan_pix (by simpa using hN), hcells, setCur_pix, embedScan_pix hN,
      Memory.insertAll_insertAll _ (embedCells_rising hN 0 k)]
  have hcount : (embedScan k 0 (setCur (embedScan k 0 s) 0)).regs.cur =
      (embedScan k 0 s).regs.cur := by
    rw [embedScan_cur k 0 _ rfl, embedScan_cur k 0 s hcur]
  rw [embedScan_frame k 0 (setCur _ 0), hpix, hcount]
  rfl

theorem msgSeq_embBody (s : State) : msgSeq (embBody s) = msgSeq s := by
  rw [embBody_frame]
  rfl

theorem markerSeq_embBody (s : State) : markerSeq (embBody s) = markerSeq s := by
  rw [embBody_frame]
  rfl

theorem embBody_bits (s : State) :
    (embBody s).bits = s.bits ∧ (embBody s).regs.bitsLen = s.regs.bitsLen :=
  commandBody_bits (.inr (.inr rfl)) s

theorem embBody_embBody (hN : 0 < nchOf s) : embBody (embBody s) = embBody s := by
  by_cases hfits : fits (bitsLenOf s) (widthOf s) (heightOf s)
  case pos =>
    have hbody : embBody s = raise .ok (embedScan (bitsLenOf s) 0 (setCur s 0)) := if_pos hfits
    have hagain := embedScan_again (s := setCur s 0) hN rfl (bitsLenOf s)
    rw [hbody, embBody_raise, embBody]
    simp [hfits, hagain]
  case neg =>
    have hbody : embBody s = raise .capacityError (setCur s 0) := if_neg hfits
    rw [hbody, embBody_raise]
    exact if_neg hfits

/-- The embedding leaves the payload in `BITS`, so a second `ENC` finds it there. -/
theorem mrkBody_t2bBody_embBody (h : 8 * msgLenOf s < 2 ^ 32) :
    mrkBody (t2bBody (embBody (mrkBody (t2bBody s)))) = embBody (mrkBody (t2bBody s)) := by
  have hmsg : msgSeq (mrkBody (t2bBody s)) = msgSeq s := by simp [mrkBody, t2bBody]
  have hmarker : markerSeq (mrkBody (t2bBody s)) = markerSeq s := by simp [mrkBody, t2bBody]
  obtain ⟨hbits, hlen⟩ := embBody_bits (mrkBody (t2bBody s))
  exact mrkBody_t2bBody_again h ((msgSeq_embBody _).trans hmsg)
    ((markerSeq_embBody _).trans hmarker) hbits hlen

/-! ### The decoder's scan -/

/-- The grid's first `v` pixels scanned from a cursor at 0, with `n` bits kept. -/
def scannedGrid (s : State) (v n : Nat) : State := setBitsLen (scanned (setCur s 0) 0 v) n

@[simp] theorem mlenOf_scannedGrid (s : State) (v n : Nat) :
    mlenOf (scannedGrid s v n) = mlenOf s := by
  simp [scannedGrid]

@[simp] theorem capacityOf_scannedGrid (s : State) (v n : Nat) :
    capacityOf (scannedGrid s v n) = capacityOf s := by
  simp [scannedGrid]

@[simp] theorem markerSeq_scannedGrid (s : State) (v n : Nat) :
    markerSeq (scannedGrid s v n) = markerSeq s := by
  simp [scannedGrid]

@[simp] theorem lsbAt_scannedGrid (s : State) (v n p : Nat) :
    lsbAt (scannedGrid s v n) p = lsbAt s p := by
  simp [lsbAt, scannedGrid]

@[simp] theorem gridLsbs_scannedGrid (s : State) (v n : Nat) :
    gridLsbs (scannedGrid s v n) = gridLsbs s := by
  simp [gridLsbs_eq, lsbsFrom]

theorem scannedGrid_eq (s : State) (v n : Nat) :
    scannedGrid s v n =
      { s with bits := Memory.insertAll s.bits (cellsFrom 0 (lsbsFrom s 0 v)),
               regs := { s.regs with bitsLen := BitVec.ofNat 32 n,
                                     cur := if v = 0 then 0#32 else BitVec.ofNat 32 (0 + v) } } := by
  rw [scannedGrid, scanned, writeBits_eq]
  rfl

/-- A second scan of as many pixels writes the same bits. -/
theorem scannedGrid_scannedGrid (s : State) (v n : Nat) :
    scannedGrid (scannedGrid s v n) v n = scannedGrid s v n := by
  have hlsbs : lsbsFrom (scannedGrid s v n) 0 v = lsbsFrom s 0 v :=
    List.map_congr_left fun p _ => lsbAt_scannedGrid s v n (0 + p)
  rw [scannedGrid_eq (scannedGrid s v n), hlsbs, scannedGrid_eq s]
  dsimp only
  rw [Memory.insertAll_insertAll s.bits (cellsFrom_rising 0 _)]

theorem extBody_extBody (hM : 1 ≤ mlenOf s) : extBody (extBody s) = extBody s := by
  cases hfm : firstMatch (markerSeq s) (gridLsbs s) with
  | none =>
    have hbody : extBody s = raise .notFound (scannedGrid s (capacityOf s) (capacityOf s)) :=
      extBody_notFound hfm
    rw [hbody, extBody_raise, extBody_notFound (by simpa using hfm), capacityOf_scannedGrid]
    exact congrArg (raise .notFound) (scannedGrid_scannedGrid s _ _)
  | some f =>
    have hbody : extBody s = raise .ok (scannedGrid s f (f - mlenOf s)) := extBody_found hM hfm
    rw [hbody, extBody_raise, extBody_found (by simpa using hM) (by simpa using hfm),
      mlenOf_scannedGrid]
    exact congrArg (raise .ok) (scannedGrid_scannedGrid s _ _)

/-! ### `DEC` -/

/-- The state with another recovered text. -/
def withText (s : State) (m : Memory Byte) (n : Word) : State :=
  { s with out := m, regs := { s.regs with outLen := n } }

theorem extractScan_withText (k p : Nat) (s : State) (m : Memory Byte) (n : Word) :
    extractScan k p (withText s m n) = withText (extractScan k p s) m n := by
  induction k generalizing p s with
  | zero => rfl
  | succ k ih =>
    have hstep : extractStep (withText s m n) p = withText (extractStep s p) m n := rfl
    have htest : matchedAt (withText (extractStep s p) m n) (p + 1) =
      matchedAt (extractStep s p) (p + 1) := rfl
    rw [extractScan, extractScan, hstep, htest, ih]
    split <;> rfl

/-- The body of `EXT` neither reads nor writes the recovered text. -/
theorem extBody_withText (s : State) (m : Memory Byte) (n : Word) :
    extBody (withText s m n) = withText (extBody s) m n :=
  extractScan_withText (capacityOf s) 0 (setCur s 0) m n

theorem decTail_decTail (s : State) : decTail (decTail s) = decTail s := by
  by_cases hok : s.regs.result = resultCode .ok
  case pos =>
    have htail : decTail s = raise .ok (b2tBody s) := if_pos hok
    have hagain : decTail (raise .ok (b2tBody s)) = raise .ok (b2tBody (raise .ok (b2tBody s))) :=
      if_pos rfl
    rw [htail, hagain, b2tBody_raise, b2tBody_b2tBody, raise_raise]
  case neg =>
    have htail : decTail s = setOutLen s 0 := if_neg hok
    rw [htail]
    exact if_neg hok

theorem extBody_decTail (hs : extBody s = s) : extBody (decTail s) = decTail s := by
  rw [decTail_frame]
  exact (extBody_withText s _ _).trans (by rw [hs]; rfl)

/-! ### Every command -/

theorem commandOK_raise (i : Instr) (k : ResultKind) (s : State) :
    CommandOK i (raise k s) ↔ CommandOK i s := by
  cases i <;> rfl

/-- No command but `MRK` writes what its own check reads. -/
theorem commandOK_commandBody {i : Instr} (hi : i ≠ .mrk) (h : CommandOK i s) :
    CommandOK i (commandBody i s) := by
  cases i with
  | mrk => exact absurd rfl hi
  | t2b | cap | enc | ext | dec =>
    rw [commandBody_frame]
    generalize commandBody _ s = u
    exact h
  | b2t => rw [commandBody, b2tBody_frame]; exact h
  | emb => rw [commandBody, embBody_frame]; exact h

theorem commandBody_commandBody {i : Instr} (hlegal : s.sizes.Legal) (hi : i ≠ .mrk)
    (h : CommandOK i s) : commandBody i (commandBody i s) = commandBody i s := by
  cases i with
  | mrk => exact absurd rfl hi
  | t2b => rw [commandBody, commandBody, t2bBody_raise, t2bBody_t2bBody, raise_raise]
  | b2t => rw [commandBody, commandBody, b2tBody_raise, b2tBody_b2tBody, raise_raise]
  | cap => rfl
  | emb =>
    obtain ⟨hg, -⟩ := h
    exact embBody_embBody (nchOf_pos hg)
  | enc =>
    obtain ⟨hm, hM, hg, hfit⟩ := h
    have hlen : 8 * msgLenOf s < 2 ^ 32 := by
      obtain ⟨-, -, -, -, hbits, -⟩ := hlegal
      omega
    rw [commandBody, commandBody, mrkBody_t2bBody_embBody hlen]
    exact embBody_embBody (nchOf_pos (gridOK_mrkBody_t2bBody.mpr hg))
  | ext =>
    obtain ⟨-, hM, -⟩ := h
    exact extBody_extBody hM.1
  | dec =>
    obtain ⟨-, hM, -⟩ := h
    rw [commandBody, commandBody, extBody_decTail (extBody_extBody hM.1), decTail_decTail]

/-- Settles O48: the second run passes the check when the first did, and its body finds what it
would write. -/
theorem runningTwiceGivesTheSameState : Obligations.RunningTwiceGivesTheSameState := by
  intro i s t hs hi h
  obtain ⟨hok, rfl⟩ | ⟨hno, rfl⟩ := exec_cases h
  · rw [exec_of_commandOK (commandOK_commandBody hi hok), commandBody_commandBody hs.1 hi hok]
  · rw [exec_of_not_commandOK (mt (commandOK_raise i .errCfg s).mp hno), raise_raise]

end Sys2Proof.Machine
end

section
/-! PROOFS. The command map of R92: the encoder places the opcode below a zero field, so the decoder
and the encoder agree in both directions, and a word that is no command has one of R93's and R94's
two reasons. -/

namespace Sys2Proof

/-! ### The fields of a command word (R91) -/

@[simp] theorem zeroField_encode (i : Instr) : zeroField (encode i) = 0#28 :=
  BitVec.extractLsb'_append_eq_left

@[simp] theorem opField_encode (i : Instr) : opField (encode i) = opcode i :=
  BitVec.extractLsb'_append_eq_right

/-- The two fields are the whole word. -/
theorem zeroField_append_opField (w : Word) : zeroField w ++ opField w = w :=
  (BitVec.extractLsb'_append_extractLsb'_eq_extractLsb' rfl).trans BitVec.extractLsb'_eq_self

theorem eq_encode_iff {w : Word} {i : Instr} :
    w = encode i ↔ zeroField w = 0#28 ∧ opField w = opcode i := by
  constructor
  · rintro rfl
    exact ⟨zeroField_encode i, opField_encode i⟩
  · rintro ⟨hzero, hop⟩
    rw [← zeroField_append_opField w, hzero, hop, encode]

/-! ### The opcodes (R92, R93) -/

@[simp] theorem decodeOp_opcode (i : Instr) : decodeOp (opcode i) = some i := by
  cases i <;> rfl

theorem eq_opcode_of_decodeOp {op : BitVec 4} {i : Instr} (h : decodeOp op = some i) :
    op = opcode i := by
  unfold decodeOp at h
  split at h <;> cases h <;> exact BitVec.eq_of_toNat_eq ‹_›

theorem decodeOp_eq_some_iff {op : BitVec 4} {i : Instr} :
    decodeOp op = some i ↔ op = opcode i :=
  ⟨eq_opcode_of_decodeOp, fun h => h ▸ decodeOp_opcode i⟩

/-- The reserved opcodes are 0 and those from 9 on. -/
theorem decodeOp_eq_none_iff {op : BitVec 4} :
    decodeOp op = none ↔ op.toNat = 0 ∨ 9 ≤ op.toNat := by
  unfold decodeOp
  split
  case h_9 =>
    simp only [imp_false] at *
    simp only [true_iff]
    omega
  all_goals
    simp only [reduceCtorEq, false_iff]
    omega

theorem exists_decodeOp_iff {op : BitVec 4} :
    (∃ i, decodeOp op = some i) ↔ 1 ≤ op.toNat ∧ op.toNat ≤ 8 := by
  rw [← Option.ne_none_iff_exists', ne_eq, decodeOp_eq_none_iff]
  omega

/-! ### The decoder -/

theorem decode_eq_ok_iff {w : Word} {i : Instr} :
    decode w = .ok i ↔ zeroField w = 0#28 ∧ decodeOp (opField w) = some i := by
  unfold decode
  split
  next hzero => cases decodeOp (opField w) <;> simp [hzero]
  next hzero => simp [hzero]

/-- Reserved bits are tested before the opcode (R94). -/
theorem decode_of_reservedBits {w : Word} (h : zeroField w ≠ 0#28) :
    decode w = .error .reservedBits :=
  if_neg h

theorem decode_of_reservedOpcode {w : Word} (hzero : zeroField w = 0#28)
    (hop : (opField w).toNat = 0 ∨ 9 ≤ (opField w).toNat) :
    decode w = .error .reservedOpcode := by
  simp [decode, hzero, decodeOp_eq_none_iff.mpr hop]

theorem decode_eq_ok_iff_eq_encode {w : Word} {i : Instr} :
    decode w = .ok i ↔ w = encode i := by
  rw [decode_eq_ok_iff, eq_encode_iff, decodeOp_eq_some_iff]

theorem decode_encode (i : Instr) : decode (encode i) = .ok i :=
  decode_eq_ok_iff_eq_encode.mpr rfl

/-- A word is a command exactly when its zero field is 0 and its opcode is one of the eight. -/
theorem exists_decode_iff {w : Word} :
    (∃ i, decode w = .ok i) ↔
      zeroField w = 0#28 ∧ 1 ≤ (opField w).toNat ∧ (opField w).toNat ≤ 8 := by
  simp_rw [decode_eq_ok_iff, exists_and_left, exists_decodeOp_iff]

/-- The eight words of R92. -/
theorem encode_eq : encode .t2b = 1#32 ∧ encode .b2t = 2#32 ∧ encode .mrk = 3#32 ∧
    encode .cap = 4#32 ∧ encode .emb = 5#32 ∧ encode .enc = 6#32 ∧ encode .ext = 7#32 ∧
    encode .dec = 8#32 := by
  decide

/-- Settles O2: the eight words by evaluation, the rest for every word. -/
theorem commandMapIsExact : Obligations.CommandMapIsExact :=
  ⟨encode_eq, fun _ => ⟨exists_decode_iff, fun _ => decode_eq_ok_iff_eq_encode⟩⟩

/-- Settles O1: the first eight words are the encodings of the eight commands, the next two have a
reserved bit set, and the last one has the reserved opcode 9. -/
theorem knownCommandWordsDecode : Obligations.KnownCommandWordsDecode :=
  ⟨decode_encode .t2b, decode_encode .b2t, decode_encode .mrk, decode_encode .cap,
    decode_encode .emb, decode_encode .enc, decode_encode .ext, decode_encode .dec,
    decode_of_reservedBits (by decide), decode_of_reservedBits (by decide),
    decode_of_reservedOpcode (by decide) (by decide)⟩

end Sys2Proof
end

section
/-! PROOFS. The two pure functions of the codec, element by element, and their four laws (R122,
R123, R126). -/

namespace Sys2Proof.Machine

/-! ### `textToBits` (R122) -/

theorem byteBits_getElem? (v : Byte) {k : Nat} (hk : k < 8) :
    (byteBits v)[k]? = some (v.getLsbD (7 - k)) := by
  simp [byteBits, hk]

theorem textToBits_getElem? {m : List Byte} {i : Nat} {v : Byte} (h : m[i]? = some v) {k : Nat}
    (hk : k < 8) : (textToBits m)[8 * i + k]? = some (v.getLsbD (7 - k)) := by
  induction m generalizing i with
  | nil => simp at h
  | cons w m ih =>
    rw [textToBits_cons]
    cases i with
    | zero =>
      obtain rfl : w = v := by simpa using h
      rw [List.getElem?_append_left (by simpa using hk), Nat.mul_zero, Nat.zero_add,
        byteBits_getElem? w hk]
    | succ i =>
      have hindex : 8 * (i + 1) + k - (byteBits w).length = 8 * i + k := by
        rw [byteBits_length]
        omega
      rw [List.getElem?_append_right (by rw [byteBits_length]; omega), hindex]
      exact ih (by simpa using h)

/-- A bit of a byte is a binary digit of its number. -/
theorem toNat_getLsbD (v : Byte) (i : Nat) : (v.getLsbD i).toNat = v.toNat / 2 ^ i % 2 := by
  rw [BitVec.getLsbD, Nat.toNat_testBit]

/-- Settles O15, byte by byte. -/
theorem textToBitsIsMsbFirst : Obligations.TextToBitsIsMsbFirst :=
  ⟨textToBits_nil, fun m => ⟨textToBits_length m, fun _ v h k hk =>
    ⟨textToBits_getElem? h hk, toNat_getLsbD v (7 - k)⟩⟩⟩

/-! ### `bitsToText` (R123) -/

/-- The number of a group of eight bits: the bit at position `k` weighs `2 ^ (7 - k)`. -/
theorem toNat_byteOfBits (b0 b1 b2 b3 b4 b5 b6 b7 : Bit) :
    (byteOfBits [b0, b1, b2, b3, b4, b5, b6, b7]).toNat = ((List.range 8).map (fun k =>
      ([b0, b1, b2, b3, b4, b5, b6, b7].getD k false).toNat * 2 ^ (7 - k))).sum := by
  revert b0 b1 b2 b3 b4 b5 b6 b7
  decide

theorem bitsToText_getElem? {s : List Bit} {j : Nat} (hj : j < s.length / 8) :
    ∃ v : Byte, (bitsToText s)[j]? = some v ∧
      v.toNat = ((List.range 8).map
        (fun k => (s.getD (8 * j + k) false).toNat * 2 ^ (7 - k))).sum := by
  induction s using bitsToText.induct generalizing j with
  | case1 b0 b1 b2 b3 b4 b5 b6 b7 s ih =>
    rw [bitsToText]
    cases j with
    | zero => exact ⟨_, rfl, toNat_byteOfBits b0 b1 b2 b3 b4 b5 b6 b7⟩
    | succ j =>
      have hj' : j < s.length / 8 := by
        simp only [List.length_cons] at hj
        omega
      have hindex (k : Nat) : 8 * (j + 1) + k = 8 * j + k + 8 := by omega
      simpa [hindex] using ih hj'
  | case2 s h =>
    rw [← bitsToText_length, bitsToText.eq_2 s h] at hj
    cases hj

/-- Settles O16, group by group. -/
theorem bitsToTextDropsTheDanglingGroup : Obligations.BitsToTextDropsTheDanglingGroup :=
  fun s => ⟨bitsToText_length s, fun _ hj => bitsToText_getElem? hj⟩

/-! ### The four laws (R126) -/

theorem textToBits_append (a b : List Byte) :
    textToBits (a ++ b) = textToBits a ++ textToBits b :=
  List.flatMap_append

theorem bitsToText_textToBits_append (m : List Byte) (t : List Bit) :
    bitsToText (textToBits m ++ t) = m ++ bitsToText t := by
  induction m with
  | nil => rfl
  | cons v m ih =>
    rw [textToBits_cons, List.append_assoc, bitsToText_byteBits_append, ih, List.cons_append]

theorem bitsToText_textToBits (m : List Byte) : bitsToText (textToBits m) = m := by
  simpa [bitsToText] using bitsToText_textToBits_append m []

theorem textToBits_bitsToText (s : List Bit) :
    textToBits (bitsToText s) = s.take (8 * (s.length / 8)) := by
  induction s using bitsToText.induct with
  | case1 b0 b1 b2 b3 b4 b5 b6 b7 s ih =>
    have hlen : 8 * ((b0 :: b1 :: b2 :: b3 :: b4 :: b5 :: b6 :: b7 :: s).length / 8) =
        8 * (s.length / 8) + 8 := by
      simp only [List.length_cons]
      omega
    rw [bitsToText, textToBits_cons, byteBits_byteOfBits, ih, hlen]
    rfl
  | case2 s h =>
    rw [← bitsToText_length, bitsToText.eq_2 s h]
    rfl

/-- Whole groups of eight are the bits of their text. -/
theorem textToBits_bitsToText_of_whole {s : List Bit} (hs : s.length % 8 = 0) :
    textToBits (bitsToText s) = s := by
  rw [textToBits_bitsToText, List.take_of_length_le (by omega)]

/-- Settles O17: the last law is the first one for the text of `s`, since `s` is whole groups. -/
theorem codecLaws : Obligations.CodecLaws :=
  ⟨fun m => ⟨bitsToText_textToBits m, textToBits_length m⟩, textToBits_bitsToText,
    textToBits_append, fun s t hs => by
      rw [← bitsToText_textToBits_append, textToBits_bitsToText_of_whole hs]⟩

end Sys2Proof.Machine
end

section
/-! PROOFS. The commands `T2B` and `B2T`: what their bodies leave in the memory they write (R124,
R125). -/

namespace Sys2Proof.Machine

variable {s : State}

/-! ### `T2B` (R124) -/

theorem bitsLenOf_t2bBody (hlegal : s.sizes.Legal) (hm : MsgOK s) :
    bitsLenOf (t2bBody s) = 8 * msgLenOf s := by
  obtain ⟨-, -, -, -, hbits, -⟩ := hlegal
  exact bitsLenOf_setBitsLen _ (Nat.lt_of_le_of_lt hm.2 hbits)

theorem bitsSeq_t2bBody (hlegal : s.sizes.Legal) (hm : MsgOK s) :
    bitsSeq (t2bBody s) = textToBits (msgSeq s) := by
  have hlen : bitsLenOf (t2bBody s) = (textToBits (msgSeq s)).length := by
    rw [bitsLenOf_t2bBody hlegal hm, textToBits_length, msgSeq_length]
  rw [bitsSeq, hlen]
  exact readBits_writeBits s 0 (textToBits (msgSeq s))

theorem readBit_t2bBody_beyond {a : Nat} (ha : 8 * msgLenOf s ≤ a) :
    readBit (t2bBody s) a = readBit s a :=
  readBit_writeBits_outside s 0 (textToBits (msgSeq s)) a (.inr (by simpa using ha))

/-- Settles O18: the accepted side is the body with its frame. -/
theorem t2bWritesTheMessageBits : Obligations.T2bWritesTheMessageBits := by
  refine ⟨by decide, fun s hlegal => ⟨fun hm => ?accepted, exec_of_not_commandOK (i := .t2b)⟩⟩
  refine ⟨_, exec_of_commandOK (i := .t2b) hm, ?frame, bitsLenOf_t2bBody hlegal hm,
    bitsSeq_t2bBody hlegal hm, fun a => readBit_t2bBody_beyond⟩
  rw [commandBody, t2bBody_frame]
  rfl

/-! ### `B2T` (R125) -/

theorem outLenOf_b2tBody (s : State) : outLenOf (b2tBody s) = bitsLenOf s / 8 :=
  outLenOf_setOutLen _ (Nat.lt_of_le_of_lt (Nat.div_le_self _ 8) s.regs.bitsLen.isLt)

/-- Reading back the text just written. -/
theorem readOuts_writeOuts (s : State) (l : List Byte) :
    (List.range l.length).map (readOut (writeOuts s 0 l)) = l := by
  refine List.ext_getElem (by simp) fun i _ hi => ?_
  simpa using readOut_writeOuts_inside s 0 l i hi

theorem outSeq_b2tBody (s : State) : outSeq (b2tBody s) = bitsToText (bitsSeq s) := by
  have hlen : outLenOf (b2tBody s) = (bitsToText (bitsSeq s)).length := by
    rw [outLenOf_b2tBody, bitsToText_length, bitsSeq_length]
  rw [outSeq, hlen]
  exact readOuts_writeOuts s (bitsToText (bitsSeq s))

theorem readOut_b2tBody_beyond {a : Nat} (ha : bitsLenOf s / 8 ≤ a) :
    readOut (b2tBody s) a = readOut s a :=
  readOut_writeOuts_outside s 0 (bitsToText (bitsSeq s)) a
    (.inr (by simpa [bitsToText_length] using ha))

/-- Settles O19: the accepted side is the body with its frame; the text fits `OUT` since the sizes
are legal. -/
theorem b2tWritesTheText : Obligations.B2tWritesTheText := by
  refine ⟨by decide, fun s hlegal => ⟨fun hb => ?accepted, exec_of_not_commandOK (i := .b2t)⟩⟩
  refine ⟨_, exec_of_commandOK (i := .b2t) hb, ?frame, outLenOf_b2tBody s,
    (outLenOf_b2tBody s).trans_le (text_fits_out hlegal hb), outSeq_b2tBody s,
    fun a => readOut_b2tBody_beyond⟩
  rw [commandBody, b2tBody_frame]
  rfl

end Sys2Proof.Machine
end

section
/-! PROOFS. The ordinal text mapping `ORD` (R127). -/

namespace Sys2Proof.Machine

/-- A text of codepoints up to 255 maps to those numbers. -/
theorem ordinalMap_of_le {cs : List Char} (h : ∀ c ∈ cs, c.toNat ≤ 255) :
    ordinalMap cs = some (cs.map (fun c => BitVec.ofNat 8 c.toNat)) := by
  induction cs with
  | nil => rfl
  | cons c cs ih =>
    obtain ⟨hc, hcs⟩ := List.forall_mem_cons.mp h
    rw [ordinalMap, if_pos hc, ih hcs]
    rfl

/-- A codepoint up to 255 is the number of its code unit. -/
theorem toNat_ordinalUnit {c : Char} (hc : c.toNat ≤ 255) :
    (BitVec.ofNat 8 c.toNat).toNat = c.toNat :=
  Nat.mod_eq_of_lt (Nat.lt_succ_of_le hc)

theorem ordinalUnmap_map {cs : List Char} (h : ∀ c ∈ cs, c.toNat ≤ 255) :
    ordinalUnmap (cs.map (fun c => BitVec.ofNat 8 c.toNat)) = cs := by
  have hback : ∀ c ∈ cs, Char.ofNat (BitVec.ofNat 8 c.toNat).toNat = id c := fun c hc => by
    rw [toNat_ordinalUnit (h c hc), Char.ofNat_toNat, id]
  rw [ordinalUnmap, List.map_map]
  exact (List.map_congr_left hback).trans (List.map_id cs)

/-- Settles O56: an accepted text maps to its own numbers, and a text that maps has no codepoint
above 255. -/
theorem ordinalMappingIsExactAndReversible : Obligations.OrdinalMappingIsExactAndReversible := by
  refine fun cs => ⟨fun h => ⟨_, ordinalMap_of_le h, List.length_map _, ?numbers,
    ordinalUnmap_map h⟩, fun ⟨c, hc, hbig⟩ => ?refused⟩
  case numbers =>
    rw [List.map_map]
    exact List.map_congr_left fun c hc => toNat_ordinalUnit (h c hc)
  case refused =>
    refine Option.eq_none_iff_forall_ne_some.mpr fun m hm => ?_
    have hle := codepoints_le_of_ordinalMap hm c hc
    omega

end Sys2Proof.Machine
end

section
/-! PROOFS. The suffix test, the first match and the rolling detector, for every marker and every
sequence (R144, R145, R146, R148). -/

namespace Sys2Proof.Machine

variable {mk s : List Bit}

/-! ### The suffix test (R144, R145) -/

theorem length_le_of_markerMatch (h : markerMatch mk s = true) : mk.length ≤ s.length :=
  ((markerMatch_iff mk s).mp h).1

theorem markerMatch_of_shorter (h : s.length < mk.length) : markerMatch mk s = false :=
  Bool.eq_false_iff.mpr fun hm => absurd (length_le_of_markerMatch hm) (Nat.not_le.mpr h)

/-- The end of a sequence is the marker exactly when it agrees with it bit by bit. -/
theorem drop_eq_marker_iff (h : mk.length ≤ s.length) :
    s.drop (s.length - mk.length) = mk ↔
      ∀ j, j < mk.length → s[s.length - mk.length + j]? = mk[j]? := by
  simp_rw [← List.getElem?_drop]
  refine ⟨fun heq j _ => by rw [heq], fun hbits => List.ext_getElem? fun j => ?_⟩
  by_cases hj : j < mk.length
  · exact hbits j hj
  · rw [List.getElem?_eq_none (by rw [List.length_drop]; omega), List.getElem?_eq_none (by omega)]

/-- Settles O20: the model compares the end of the sequence with the marker as a whole. -/
theorem markerMatchIsTheSuffixTest : Obligations.MarkerMatchIsTheSuffixTest := fun mk s =>
  ⟨(markerMatch_iff mk s).trans (and_congr_right drop_eq_marker_iff), markerMatch_of_shorter⟩

/-! ### The first match (R148) -/

/-- A prefix shorter than the marker never matches, so the bound of R148 on the length is free. -/
theorem markerMatch_take_eq_false {n : Nat}
    (h : mk.length ≤ n → markerMatch mk (s.take n) = false) :
    markerMatch mk (s.take n) = false := by
  by_cases hn : mk.length ≤ n
  · exact h hn
  · exact markerMatch_of_shorter (by rw [List.length_take]; omega)

theorem firstMatch_eq_some_iff {f : Nat} :
    firstMatch mk s = some f ↔ f ≤ s.length ∧ markerMatch mk (s.take f) = true ∧
      ∀ n, n < f → markerMatch mk (s.take n) = false := by
  constructor
  · intro h
    obtain ⟨-, hrest⟩ := firstMatch_some h
    exact hrest
  · rintro ⟨hlen, hmatch, hleast⟩
    exact firstMatch_eq_some hlen hmatch hleast

theorem firstMatch_eq_none_iff :
    firstMatch mk s = none ↔ ∀ n, n ≤ s.length → markerMatch mk (s.take n) = false := by
  refine ⟨firstMatch_none, fun h => Option.eq_none_iff_forall_ne_some.mpr fun f hf => ?_⟩
  obtain ⟨hlen, hmatch, -⟩ := firstMatch_eq_some_iff.mp hf
  rw [h f hlen] at hmatch
  cases hmatch

/-- Settles O21: the lemmas above, with R148's lower bound on the lengths put in. -/
theorem firstMatchIsLeast : Obligations.FirstMatchIsLeast := by
  refine fun mk s => ⟨fun f => ⟨fun h => ?least, fun ⟨_, hlen, hmatch, hleast⟩ => ?first⟩,
    ⟨fun h n _ hn => firstMatch_none h n hn, fun h => ?none⟩⟩
  case least =>
    obtain ⟨hM, hlen, hmatch, hleast⟩ := firstMatch_some h
    exact ⟨hM, hlen, hmatch, fun n _ hn => hleast n hn⟩
  case first =>
    exact firstMatch_eq_some hlen hmatch
      fun n hn => markerMatch_take_eq_false fun hM => hleast n hM hn
  case none =>
    exact firstMatch_eq_none_iff.mpr fun n hn => markerMatch_take_eq_false fun hM => h n hM hn

/-! ### The rolling detector (R146) -/

theorem detectorRun_concat (M : Nat) (s : List Bit) (b : Bit) :
    detectorRun M (s ++ [b]) = detectorStep M (detectorRun M s) b :=
  List.foldl_concat ..

/-- A full window drops its oldest bit for the new one, a shorter one grows: either way the window
stays the end of the sequence. -/
theorem detectorStep_window {M : Nat} (hM : 1 ≤ M) (s : List Bit) (b : Bit) :
    detectorStep M (s.drop (s.length - M), s.length) b =
      ((s ++ [b]).drop ((s ++ [b]).length - M), (s ++ [b]).length) := by
  rw [detectorStep, List.length_append, List.length_singleton]
  split
  next hfull =>
    have hpos : s.length + 1 - M = s.length - M + 1 := by omega
    rw [hpos, List.drop_append_of_le_length (by omega), List.drop_drop]
  next hshort =>
    have hpos : s.length - M = 0 := by omega
    have hpos' : s.length + 1 - M = 0 := by omega
    rw [hpos, hpos', List.drop_zero, List.drop_zero]

/-- The window holds the last `M` bits, or all of a shorter sequence. -/
theorem detectorRun_eq {M : Nat} (hM : 1 ≤ M) (s : List Bit) :
    detectorRun M s = (s.drop (s.length - M), s.length) := by
  induction s using List.reverseRecOn with
  | nil => rw [List.drop_nil]; rfl
  | append_singleton s b ih => rw [detectorRun_concat, ih, detectorStep_window hM]

/-- Settles O22: the detector's report on the window and the count is the suffix test's own
definition. -/
theorem rollingDetectorIsMarkerMatch : Obligations.RollingDetectorIsMarkerMatch := by
  intro mk s hmk
  have hstart : s.length - min s.length mk.length = s.length - mk.length := by omega
  rw [detectorRun_eq (List.length_pos_iff.mpr hmk), hstart]
  exact ⟨rfl, rfl, rfl⟩

end Sys2Proof.Machine
end

section
/-! PROOFS. The command `MRK` (R147), and the refusal of a marker of illegal length by every command
that uses one (R143). -/

namespace Sys2Proof.Machine

variable {s : State}

/-! ### `MRK` (R147) -/

/-- A run is its first cells followed by the rest. -/
theorem readBits_add (s : State) (a n k : Nat) :
    readBits s a (n + k) = readBits s a n ++ readBits s (a + n) k := by
  rw [← List.take_append_drop n (readBits s a (n + k)), readBits_take s a (n + k) n (by omega),
    readBits_drop, Nat.add_sub_cancel_left]

theorem bitsLenOf_mrkBody (hlegal : s.sizes.Legal) (h : MrkOK s) :
    bitsLenOf (mrkBody s) = bitsLenOf s + mlenOf s := by
  obtain ⟨-, -, -, -, hbits, -⟩ := hlegal
  obtain ⟨-, -, hroom⟩ := h
  exact bitsLenOf_setBitsLen _ (Nat.lt_of_le_of_lt hroom hbits)

theorem readBit_mrkBody_outside {a : Nat} (ha : a < bitsLenOf s ∨ bitsLenOf s + mlenOf s ≤ a) :
    readBit (mrkBody s) a = readBit s a :=
  readBit_writeBits_outside s (bitsLenOf s) (markerSeq s) a (by rwa [markerSeq_length])

theorem readBits_mrkBody_marker (s : State) :
    readBits (mrkBody s) (bitsLenOf s) (mlenOf s) = markerSeq s := by
  rw [← markerSeq_length]
  exact readBits_writeBits s (bitsLenOf s) (markerSeq s)

theorem bitsSeq_mrkBody (hlegal : s.sizes.Legal) (h : MrkOK s) :
    bitsSeq (mrkBody s) = bitsSeq s ++ markerSeq s := by
  have hbefore : readBits (mrkBody s) 0 (bitsLenOf s) = readBits s 0 (bitsLenOf s) :=
    readBits_congr s fun a _ ha => readBit_mrkBody_outside (.inl (by omega))
  rw [bitsSeq, bitsLenOf_mrkBody hlegal h, readBits_add, hbefore, Nat.zero_add,
    readBits_mrkBody_marker, bitsSeq]

/-- Settles O23: the accepted side is the body with its frame. -/
theorem mrkAppendsTheMarker : Obligations.MrkAppendsTheMarker := by
  refine ⟨by decide, fun s hlegal => ⟨fun h => ?accepted, exec_of_not_commandOK (i := .mrk)⟩⟩
  refine ⟨_, exec_of_commandOK (i := .mrk) h, ?frame, bitsLenOf_mrkBody hlegal h,
    bitsSeq_mrkBody hlegal h, fun a => readBit_mrkBody_outside⟩
  rw [commandBody, mrkBody_frame]
  rfl

/-! ### The length of the marker (R143) -/

/-- The four commands that use the marker all need `MarkerOK`. -/
theorem markerOK_of_commandOK {i : Instr} (hi : i = .mrk ∨ i = .enc ∨ i = .ext ∨ i = .dec)
    (h : CommandOK i s) : MarkerOK s := by
  obtain rfl | rfl | rfl | rfl := hi
  case inl =>
    obtain ⟨hM, -⟩ := h
    exact hM
  all_goals
    obtain ⟨-, hM, -⟩ := h
    exact hM

/-- Settles O24: such a marker is not `MarkerOK`, so the check of the command fails. -/
theorem emptyOrOverlongMarkerIsRefused : Obligations.EmptyOrOverlongMarkerIsRefused := by
  intro s i hlen hi
  refine exec_of_not_commandOK fun hok => ?_
  obtain ⟨hpos, hmax⟩ := markerOK_of_commandOK hi hok
  omega

end Sys2Proof.Machine
end

section
/-! PROOFS. Early occurrences of the marker in a payload, in general and for the 8-bit zero marker
(R149, R150). -/

namespace Sys2Proof.Machine

/-! ### Matches as windows -/

/-- The prefix that ends `mk.length` bits after position `i` matches exactly when the window from
`i` on is the marker. -/
theorem markerMatch_take_iff_window {mk s : List Bit} {i : Nat} (h : i + mk.length ≤ s.length) :
    markerMatch mk (s.take (i + mk.length)) = true ↔ (s.drop i).take mk.length = mk := by
  rw [markerMatch_iff, List.length_take_of_le h, Nat.add_sub_cancel_right, List.drop_take,
    Nat.add_sub_cancel_left]
  exact and_iff_right (Nat.le_add_left ..)

theorem payload_length (mk : List Bit) (m : List Byte) :
    (payload mk m).length = 8 * m.length + mk.length := by
  rw [payload, List.length_append, textToBits_length]

/-- The payload ends with the marker. -/
theorem markerMatch_payload (mk : List Bit) (m : List Byte) :
    markerMatch mk (payload mk m) = true := by
  have hpos : (payload mk m).length - mk.length = (textToBits m).length := by
    rw [payload_length, textToBits_length, Nat.add_sub_cancel_right]
  refine (markerMatch_iff mk _).mpr ⟨by rw [payload_length]; omega, ?_⟩
  rw [hpos, payload, List.drop_left]

/-- No match comes early exactly when no window that starts inside the message bits is the
marker. -/
theorem noEarlyMarker_iff {mk : List Bit} {m : List Byte} :
    NoEarlyMarker mk m ↔
      ∀ i, i < (textToBits m).length → ((payload mk m).drop i).take mk.length ≠ mk := by
  have hlen := payload_length mk m
  rw [NoEarlyMarker, ← hlen, firstMatch_eq_some_iff, List.take_length,
    and_iff_right le_rfl, and_iff_right (markerMatch_payload mk m), textToBits_length]
  constructor
  · intro hleast i hi hwindow
    have hno := hleast (i + mk.length) (by omega)
    rw [(markerMatch_take_iff_window (by omega)).mpr hwindow] at hno
    cases hno
  · intro hwindows n hn
    refine markerMatch_take_eq_false fun hM => Bool.eq_false_iff.mpr fun hmatch => ?_
    obtain ⟨i, rfl⟩ := Nat.exists_eq_add_of_le' hM
    exact hwindows i (by omega) ((markerMatch_take_iff_window (by omega)).mp hmatch)

/-! ### A marker of zeros -/

theorem eq_zeros_iff {l : List Bit} {n : Nat} :
    l = List.replicate n false ↔ l.length = n ∧ true ∉ l := by
  rw [List.eq_replicate_iff]
  refine and_congr_right fun _ => ⟨fun hall htrue => ?_, fun hnot b hb => ?_⟩
  · cases hall true htrue
  · exact Bool.eq_false_iff.mpr fun htrue => hnot (htrue ▸ hb)

/-- A window into bits followed by zeros is all zeros exactly when its part in the bits is. -/
theorem window_eq_zeros_iff {l : List Bit} {n i : Nat} (hi : i ≤ l.length) :
    ((l ++ List.replicate n false).drop i).take n = List.replicate n false ↔
      true ∉ (l.drop i).take n := by
  have hlen : (((l ++ List.replicate n false).drop i).take n).length = n := by
    rw [List.length_take, List.length_drop, List.length_append, List.length_replicate]
    omega
  rw [eq_zeros_iff, and_iff_right hlen, List.drop_append_of_le_length hi, List.take_append,
    List.take_replicate]
  simp

/-- Whole windows and windows cut off by the end of the bits: the first hold a 1 unless they are all
zeros, and the others all do when the last bit is 1, since they share it. -/
theorem forall_true_mem_window_iff {l : List Bit} {n : Nat} (hn : 1 ≤ n) :
    (∀ i, i < l.length → true ∈ (l.drop i).take n) ↔
      (∀ i, i + n ≤ l.length → (l.drop i).take n ≠ List.replicate n false) ∧
        ∀ b, l.getLast? = some b → b = true := by
  constructor
  · intro h
    refine ⟨fun i hi hzeros => ?_, fun b hb => ?_⟩
    · have hmem := h i (by omega)
      rw [hzeros] at hmem
      cases List.eq_of_mem_replicate hmem
    · obtain ⟨l, rfl⟩ := List.getLast?_eq_some_iff.mp hb
      have hmem := h l.length (by simp)
      rw [List.drop_left] at hmem
      exact (List.mem_singleton.mp (List.mem_of_mem_take hmem)).symm
  · rintro ⟨hwhole, hlast⟩ i hi
    by_cases hfit : i + n ≤ l.length
    · have hlen : ((l.drop i).take n).length = n := by
        rw [List.length_take, List.length_drop]
        omega
      by_contra hnot
      exact hwhole i hfit (eq_zeros_iff.mpr ⟨hlen, hnot⟩)
    · have hlong : (l.drop i).length ≤ n := by
        rw [List.length_drop]
        omega
      have hne : l ≠ [] := List.ne_nil_of_length_pos (Nat.zero_lt_of_lt hi)
      have htrue : l.getLast? = some true := by
        rw [List.getLast?_eq_some_getLast hne, hlast _ (List.getLast?_eq_some_getLast hne)]
      rw [List.take_of_length_le hlong]
      exact List.mem_of_getLast? (by rw [List.getLast?_drop, if_neg hi.not_ge, htrue])

/-- The last message bit is the lowest bit of the last byte (R122). -/
theorem getLast?_textToBits (m : List Byte) :
    (textToBits m).getLast? = m.getLast?.map (fun v => v.getLsbD 0) := by
  obtain rfl | ⟨m, v, rfl⟩ := List.eq_nil_or_concat' m
  · rfl
  · simp [textToBits_append, byteBits_eq]

/-- Settles O25: a window of the payload is all zeros when its part in the message bits is; the
windows that reach into the marker all share the last message bit, the lowest of the last byte. -/
theorem zeroMarkerEarlyMatchCharacterised : Obligations.ZeroMarkerEarlyMatchCharacterised := by
  intro m
  rw [noEarlyMarker_iff, payload, List.length_replicate]
  have hwindow : ∀ i, i < (textToBits m).length →
      (((textToBits m ++ List.replicate 8 false).drop i).take 8 ≠ List.replicate 8 false ↔
        true ∈ ((textToBits m).drop i).take 8) := fun i hi =>
    (not_congr (window_eq_zeros_iff hi.le)).trans not_not
  rw [forall₂_congr hwindow, forall_true_mem_window_iff (by decide), getLast?_textToBits]
  simp only [Option.map_eq_some_iff, forall_exists_index, and_imp, forall_apply_eq_imp_iff₂]

end Sys2Proof.Machine
end

section
/-! PROOFS. The capacity validator (spec/42_capacity.md): the check as a comparison, and the three
outcomes of `CAP`. -/

namespace Sys2Proof.Machine

/-- R161: the check succeeds when the bits are at most as many as the pixels. -/
theorem fits_iff {n w h : Nat} : fits n w h = true ↔ n ≤ w * h := by
  simp [fits]

/-- The code `CAP` answers with when the dimensions are legal is that of the check. -/
theorem exec_cap_of_dimOK {s : State} (hd : DimOK s) :
    exec .cap s =
      .next (raise (if bitsLenOf s ≤ widthOf s * heightOf s then .ok else .capacityError) s) := by
  rw [exec_of_commandOK (i := .cap) hd, commandBody]
  simp only [fits_iff]

/-- Settles O26: with legal dimensions one lemma for both outcomes of the comparison, without them
the common refusal; each is a `raise`, which writes `RESULT` only. -/
theorem capComparesWithTheCapacity : Obligations.CapComparesWithTheCapacity := by
  refine ⟨by decide, fun s => ⟨fun hd hfit => ?_, fun hd hover => ?_, fun hd => ?_⟩⟩
  · rw [exec_cap_of_dimOK hd, if_pos hfit]
    rfl
  · rw [exec_cap_of_dimOK hd, if_neg hover.not_ge]
    rfl
  · exact exec_of_not_commandOK (i := .cap) hd

end Sys2Proof.Machine
end

section
/-! PROOFS. `EmbedBit` bit by bit and as a number (R172), and the one cell a step of the encoder's
scan writes (R173). -/

namespace Sys2Proof.Machine

/-! ### `EmbedBit` (R172) -/

theorem bitByte_eq (b : Bit) : bitByte b = if b then 1#8 else 0#8 := by
  cases b <;> rfl

theorem getLsbD_zero_embedBit (v : Byte) (b : Bit) : (embedBit v b).getLsbD 0 = b := by
  cases b <;> simp [embedBit, bitByte]

/-- The mask `0xFE` has every bit of a byte but bit 0. -/
theorem getLsbD_mask {k : Nat} (hpos : 1 ≤ k) (hk : k < 8) : (0xFE#8).getLsbD k = true := by
  revert k
  decide

/-- Above bit 0 the byte of a bit is 0. -/
theorem getLsbD_bitByte_of_pos (b : Bit) {k : Nat} (hpos : 1 ≤ k) :
    (bitByte b).getLsbD k = false := by
  have hk : k ≠ 0 := Nat.ne_of_gt hpos
  simp [bitByte, hk]

theorem getLsbD_embedBit_of_pos (v : Byte) (b : Bit) {k : Nat} (hpos : 1 ≤ k) :
    (embedBit v b).getLsbD k = v.getLsbD k := by
  by_cases hk : k < 8
  · rw [embedBit, BitVec.getLsbD_or, BitVec.getLsbD_and, getLsbD_mask hpos hk,
      getLsbD_bitByte_of_pos b hpos, Bool.and_true, Bool.or_false]
  · have hge : 8 ≤ k := Nat.le_of_not_lt hk
    rw [BitVec.getLsbD_of_ge _ _ hge, BitVec.getLsbD_of_ge _ _ hge]

theorem embedBit_eq_self {v : Byte} {b : Bit} (h : v.getLsbD 0 = b) : embedBit v b = v := by
  refine BitVec.eq_of_getLsbD_eq fun k _ => ?_
  obtain rfl | hpos := Nat.eq_zero_or_pos k
  · rw [getLsbD_zero_embedBit, h]
  · exact getLsbD_embedBit_of_pos v b hpos

/-- Bit 0 of a byte is the remainder of its number. -/
theorem toNat_lsb (v : Byte) : (v.getLsbD 0).toNat = v.toNat % 2 := by
  rw [toNat_getLsbD, Nat.pow_zero, Nat.div_one]

/-- The half of the number comes from bits 7 to 1, its remainder from bit 0. -/
theorem toNat_embedBit (v : Byte) (b : Bit) :
    (embedBit v b).toNat = 2 * (v.toNat / 2) + b.toNat := by
  have hhalf : (embedBit v b).toNat / 2 = v.toNat / 2 := Nat.eq_of_testBit_eq fun k => by
    rw [Nat.testBit_div_two, Nat.testBit_div_two]
    exact getLsbD_embedBit_of_pos v b (Nat.succ_pos k)
  have hlsb : b.toNat = (embedBit v b).toNat % 2 := by
    rw [← toNat_lsb, getLsbD_zero_embedBit]
  omega

/-- Settles O29: the bits by the mask, the number by its half and its bit 0. -/
theorem embedBitReplacesTheLsb : Obligations.EmbedBitReplacesTheLsb := by
  intro v b
  have hnum := toNat_embedBit v b
  have hlsb := toNat_lsb v
  refine ⟨by rw [embedBit, bitByte_eq], fun k hpos _ => getLsbD_embedBit_of_pos v b hpos,
    getLsbD_zero_embedBit v b, hnum, embedBit_eq_self, ?_, ?_⟩
  · rintro h0 rfl
    rw [h0, Bool.toNat_false] at hlsb
    rw [Bool.toNat_true] at hnum
    omega
  · rintro h1 rfl
    rw [h1, Bool.toNat_true] at hlsb
    rw [Bool.toNat_false] at hnum
    omega

/-! ### `EmbedStep` (R173) -/

/-- Settles O30: the frame by unfolding, the cell and the others by the one read law of the step. -/
theorem embedStepWritesOneCell : Obligations.EmbedStepWritesOneCell := fun s p =>
  ⟨rfl, (readPix_embedStep s p _).trans (if_pos rfl),
    fun a ha => (readPix_embedStep s p a).trans (if_neg ha)⟩

end Sys2Proof.Machine
end

section
/-! PROOFS. The command `EMB` (R174): what its body leaves in `PIX`, in `CUR` and in the LSBs of the
grid. -/

namespace Sys2Proof.Machine

variable {s : State}

/-! ### The two outcomes of the capacity check -/

theorem embBody_of_fits (hfit : bitsLenOf s ≤ widthOf s * heightOf s) :
    embBody s = raise .ok (embedScan (bitsLenOf s) 0 (setCur s 0)) :=
  if_pos (fits_iff.mpr hfit)

theorem embBody_of_overflow (hover : widthOf s * heightOf s < bitsLenOf s) :
    embBody s = raise .capacityError (setCur s 0) :=
  if_neg (mt fits_iff.mp hover.not_ge)

/-! ### What the body leaves alone -/

theorem readBit_embBody (s : State) (a : Nat) : readBit (embBody s) a = readBit s a := by
  rw [embBody_frame]
  rfl

theorem bitsSeq_embBody (s : State) : bitsSeq (embBody s) = bitsSeq s := by
  rw [embBody_frame]
  rfl

theorem bitsLenOf_embBody (s : State) : bitsLenOf (embBody s) = bitsLenOf s := by
  rw [embBody_frame]
  rfl

theorem capacityOf_embBody (s : State) : capacityOf (embBody s) = capacityOf s := by
  rw [embBody_frame]
  rfl

theorem designatedCell_embBody (s : State) (p : Nat) :
    designatedCell (embBody s) p = designatedCell s p := by
  rw [embBody_frame]
  rfl

/-! ### A sequence that fits -/

theorem embBody_frame_of_fits (hfit : bitsLenOf s ≤ widthOf s * heightOf s) :
    embBody s = { s with pix := (embBody s).pix,
                         regs := { s.regs with cur := s.regs.bitsLen, result := 1#32 } } := by
  have hcur : (embBody s).regs.cur = s.regs.bitsLen := by
    rw [embBody_of_fits hfit]
    exact BitVec.eq_of_toNat_eq (curOf_embedScan_bitsLen s)
  have hres : (embBody s).regs.result = 1#32 := by
    rw [embBody_of_fits hfit]
    rfl
  exact (embBody_frame s).trans (by rw [hcur, hres])

theorem curOf_embBody (hfit : bitsLenOf s ≤ widthOf s * heightOf s) :
    curOf (embBody s) = bitsLenOf s := by
  rw [embBody_frame_of_fits hfit]
  rfl

theorem readPix_embBody_inside (hN : 0 < nchOf s) (hfit : bitsLenOf s ≤ widthOf s * heightOf s)
    {p : Nat} (hp : p < bitsLenOf s) :
    readPix (embBody s) (designatedCell s p) =
      embedBit (readPix s (designatedCell s p)) (readBit s p) := by
  rw [embBody_of_fits hfit]
  exact readPix_embedScan_inside (bitsLenOf s) 0 (setCur s 0) hN p (Nat.zero_le p) (by omega)

theorem readPix_embBody_outside (hfit : bitsLenOf s ≤ widthOf s * heightOf s) {a : Nat}
    (ha : ∀ p, p < bitsLenOf s → a ≠ designatedCell s p) :
    readPix (embBody s) a = readPix s a := by
  rw [embBody_of_fits hfit]
  exact readPix_embedScan_outside (bitsLenOf s) 0 (setCur s 0) a fun p _ hp => ha p (by omega)

/-- Settles O31: the check decides between the body's two outcomes; the cells are those of the
scan. -/
theorem embEmbedsTheBitSequence : Obligations.EmbEmbedsTheBitSequence := by
  refine ⟨by decide, fun s => ⟨fun hg hb hfit => ?fits, fun hg hb hover => ?overflow,
    exec_of_not_commandOK (i := .emb)⟩⟩
  case fits =>
    exact ⟨_, exec_of_commandOK (i := .emb) ⟨hg, hb⟩, embBody_frame_of_fits hfit,
      fun p => readPix_embBody_inside (nchOf_pos hg) hfit, fun a => readPix_embBody_outside hfit⟩
  case overflow =>
    rw [exec_of_commandOK (i := .emb) ⟨hg, hb⟩, commandBody, embBody_of_overflow hover]
    rfl

/-! ### The LSBs of the grid -/

theorem lsbAt_embBody_inside (hN : 0 < nchOf s) (hfit : bitsLenOf s ≤ widthOf s * heightOf s)
    {p : Nat} (hp : p < bitsLenOf s) : lsbAt (embBody s) p = readBit s p := by
  rw [lsbAt, designatedCell_embBody, readPix_embBody_inside hN hfit hp, extractBit,
    getLsbD_zero_embedBit]

theorem lsbAt_embBody_beyond (hN : 0 < nchOf s) (hfit : bitsLenOf s ≤ widthOf s * heightOf s)
    {p : Nat} (hp : bitsLenOf s ≤ p) : lsbAt (embBody s) p = lsbAt s p := by
  have hother : ∀ q, q < bitsLenOf s → designatedCell s p ≠ designatedCell s q :=
    fun q hq heq => by have := designatedCell_inj hN heq; omega
  rw [lsbAt, designatedCell_embBody, readPix_embBody_outside hfit hother, lsbAt]

theorem gridLsbs_getElem {p : Nat} (hp : p < (gridLsbs s).length) :
    (gridLsbs s)[p] = lsbAt s p := by
  simp [gridLsbs, lsbAt]

theorem bitsSeq_getElem {p : Nat} (hp : p < (bitsSeq s).length) :
    (bitsSeq s)[p] = readBit s p := by
  simp [bitsSeq, readBits]

theorem bitsSeq_getElem?_eq_some {p : Nat} {b : Bit} :
    (bitsSeq s)[p]? = some b ↔ p < bitsLenOf s ∧ readBit s p = b := by
  rw [List.getElem?_eq_some_iff]
  simp [bitsSeq_getElem]

/-- After an embedding the LSBs in scan order are the sequence, then the host's (R180). -/
theorem gridLsbs_embBody (hN : 0 < nchOf s) (hfit : bitsLenOf s ≤ widthOf s * heightOf s) :
    gridLsbs (embBody s) = bitsSeq s ++ (gridLsbs s).drop (bitsLenOf s) := by
  have hcap : bitsLenOf s ≤ capacityOf s := hfit
  refine List.ext_getElem (by simp [capacityOf_embBody, hcap]) fun p hp hp' => ?_
  rw [gridLsbs_getElem]
  by_cases hpn : p < bitsLenOf s
  · rw [List.getElem_append_left (by simpa using hpn), bitsSeq_getElem,
      lsbAt_embBody_inside hN hfit hpn]
  · have hge : bitsLenOf s ≤ p := Nat.le_of_not_lt hpn
    rw [List.getElem_append_right (by simpa using hge), List.getElem_drop, gridLsbs_getElem,
      bitsSeq_length, Nat.add_sub_cancel' hge, lsbAt_embBody_beyond hN hfit hge]

end Sys2Proof.Machine
end

section
/-! PROOFS. The command `ENC` (R176): its first step puts the payload into `BITS`, its others are
the body of `EMB`. Then what an encoding, by `EMB` or by `ENC`, leaves alone (R178, R180). -/

namespace Sys2Proof.Machine

variable {s t : State}

/-! ### The payload in `BITS` -/

/-- The state that step 1 of `ENC` leaves, from which it embeds (R176). -/
def withPayload (s : State) : State := mrkBody (t2bBody s)

theorem exec_enc_of_encOK (h : EncOK s) : exec .enc s = .next (embBody (withPayload s)) :=
  exec_of_commandOK (i := .enc) h

@[simp] theorem widthOf_withPayload (s : State) : widthOf (withPayload s) = widthOf s := by
  simp [withPayload, mrkBody, t2bBody]

@[simp] theorem heightOf_withPayload (s : State) : heightOf (withPayload s) = heightOf s := by
  simp [withPayload, mrkBody, t2bBody]

@[simp] theorem nchOf_withPayload (s : State) : nchOf (withPayload s) = nchOf s := by
  simp [withPayload, mrkBody, t2bBody]

@[simp] theorem readPix_withPayload (s : State) (a : Nat) :
    readPix (withPayload s) a = readPix s a := by
  simp [withPayload, mrkBody, t2bBody]

@[simp] theorem designatedCell_withPayload (s : State) (p : Nat) :
    designatedCell (withPayload s) p = designatedCell s p := by
  simp [withPayload, mrkBody, t2bBody]

@[simp] theorem gridLsbs_withPayload (s : State) : gridLsbs (withPayload s) = gridLsbs s := by
  simp [gridLsbs, capacityOf]

theorem payload_length_lt (hlegal : s.sizes.Legal) (h : EncOK s) :
    8 * msgLenOf s + mlenOf s < 2 ^ 32 := by
  obtain ⟨-, -, -, -, hbits, -⟩ := hlegal
  obtain ⟨-, -, -, hroom⟩ := h
  exact Nat.lt_of_le_of_lt hroom hbits

theorem withPayload_eq (hlegal : s.sizes.Legal) (h : EncOK s) :
    withPayload s =
      setBitsLen (writeBits s 0 (payload (markerSeq s) (msgSeq s))) (8 * msgLenOf s + mlenOf s) :=
  mrkBody_t2bBody (Nat.lt_of_le_of_lt (Nat.le_add_right _ _) (payload_length_lt hlegal h))

theorem withPayload_frame (hlegal : s.sizes.Legal) (h : EncOK s) :
    withPayload s =
      { s with bits := (withPayload s).bits,
               regs := { s.regs with
                 bitsLen := BitVec.ofNat 32 (8 * msgLenOf s + mlenOf s) } } := by
  rw [withPayload_eq hlegal h, writeBits_frame]
  rfl

theorem bitsLenOf_withPayload (hlegal : s.sizes.Legal) (h : EncOK s) :
    bitsLenOf (withPayload s) = 8 * msgLenOf s + mlenOf s := by
  rw [withPayload_eq hlegal h]
  exact bitsLenOf_setBitsLen _ (payload_length_lt hlegal h)

theorem payload_msgSeq_length (s : State) :
    (payload (markerSeq s) (msgSeq s)).length = 8 * msgLenOf s + mlenOf s := by
  rw [payload_length, msgSeq_length, markerSeq_length]

theorem bitsSeq_withPayload (hlegal : s.sizes.Legal) (h : EncOK s) :
    bitsSeq (withPayload s) = payload (markerSeq s) (msgSeq s) := by
  rw [bitsSeq, bitsLenOf_withPayload hlegal h, ← payload_msgSeq_length, withPayload_eq hlegal h]
  exact readBits_writeBits s 0 _

theorem readBit_withPayload_beyond (hlegal : s.sizes.Legal) (h : EncOK s) {a : Nat}
    (ha : 8 * msgLenOf s + mlenOf s ≤ a) : readBit (withPayload s) a = readBit s a := by
  rw [withPayload_eq hlegal h]
  exact readBit_writeBits_outside s 0 _ a (.inr (by rwa [payload_msgSeq_length, Nat.zero_add]))

/-! ### The three outcomes of `ENC` -/

/-- A payload fits the grid as the sequence to be embedded. -/
theorem withPayload_fits (hlegal : s.sizes.Legal) (h : EncOK s)
    (hfit : 8 * msgLenOf s + mlenOf s ≤ widthOf s * heightOf s) :
    bitsLenOf (withPayload s) ≤ widthOf (withPayload s) * heightOf (withPayload s) := by
  rwa [bitsLenOf_withPayload hlegal h, widthOf_withPayload, heightOf_withPayload]

theorem withPayload_overflows (hlegal : s.sizes.Legal) (h : EncOK s)
    (hover : widthOf s * heightOf s < 8 * msgLenOf s + mlenOf s) :
    widthOf (withPayload s) * heightOf (withPayload s) < bitsLenOf (withPayload s) := by
  rwa [bitsLenOf_withPayload hlegal h, widthOf_withPayload, heightOf_withPayload]

theorem nchOf_withPayload_pos (h : EncOK s) : 0 < nchOf (withPayload s) := by
  obtain ⟨-, -, hg, -⟩ := h
  rw [nchOf_withPayload]
  exact nchOf_pos hg

/-- What `ENC` leaves in `BITS` does not depend on the capacity check. -/
theorem bits_embBody_withPayload (hlegal : s.sizes.Legal) (h : EncOK s) :
    bitsLenOf (embBody (withPayload s)) = 8 * msgLenOf s + mlenOf s ∧
      bitsSeq (embBody (withPayload s)) = textToBits (msgSeq s) ++ markerSeq s ∧
      ∀ a, 8 * msgLenOf s + mlenOf s ≤ a → readBit (embBody (withPayload s)) a = readBit s a :=
  ⟨(bitsLenOf_embBody _).trans (bitsLenOf_withPayload hlegal h),
    (bitsSeq_embBody _).trans (bitsSeq_withPayload hlegal h),
    fun a ha => (readBit_embBody _ a).trans (readBit_withPayload_beyond hlegal h ha)⟩

/-- What `ENC` leaves in `PIX` when the payload fits: payload bit `p` in the cell of pixel `p`. -/
theorem readPix_embBody_withPayload (hlegal : s.sizes.Legal) (h : EncOK s)
    (hfit : 8 * msgLenOf s + mlenOf s ≤ widthOf s * heightOf s) {p : Nat} {b : Bit}
    (hb : (payload (markerSeq s) (msgSeq s))[p]? = some b) :
    readPix (embBody (withPayload s)) (designatedCell s p) =
      embedBit (readPix s (designatedCell s p)) b := by
  rw [← bitsSeq_withPayload hlegal h] at hb
  obtain ⟨hp, rfl⟩ := bitsSeq_getElem?_eq_some.mp hb
  simpa using readPix_embBody_inside (nchOf_withPayload_pos h) (withPayload_fits hlegal h hfit) hp

theorem readPix_embBody_withPayload_outside (hlegal : s.sizes.Legal) (h : EncOK s)
    (hfit : 8 * msgLenOf s + mlenOf s ≤ widthOf s * heightOf s) {a : Nat}
    (ha : ∀ p, p < 8 * msgLenOf s + mlenOf s → a ≠ designatedCell s p) :
    readPix (embBody (withPayload s)) a = readPix s a := by
  have houtside : ∀ p, p < bitsLenOf (withPayload s) → a ≠ designatedCell (withPayload s) p := by
    simpa [bitsLenOf_withPayload hlegal h] using ha
  rw [readPix_embBody_outside (withPayload_fits hlegal h hfit) houtside, readPix_withPayload]

/-- Settles O32: the frame of step 1 inside that of the embedding, then `BITS` and `PIX`. -/
theorem encEmbedsThePayload : Obligations.EncEmbedsThePayload := by
  refine ⟨by decide, fun s hlegal => ⟨fun h hfit => ?fits, fun h hover => ?overflow,
    exec_of_not_commandOK (i := .enc)⟩⟩
  all_goals obtain ⟨hlen, hseq, hbeyond⟩ := bits_embBody_withPayload hlegal h
  case fits =>
    have hfit' := withPayload_fits hlegal h hfit
    refine ⟨_, exec_enc_of_encOK h, ?_, hlen,
      (curOf_embBody hfit').trans (bitsLenOf_withPayload hlegal h), hseq, hbeyond,
      fun p b => readPix_embBody_withPayload hlegal h hfit,
      fun a => readPix_embBody_withPayload_outside hlegal h hfit⟩
    rw [embBody_frame_of_fits hfit', withPayload_frame hlegal h]
  case overflow =>
    refine ⟨_, exec_enc_of_encOK h, ?_, hlen, hseq, hbeyond⟩
    rw [embBody_of_overflow (withPayload_overflows hlegal h hover), withPayload_frame hlegal h]
    rfl

/-! ### What an encoding leaves alone (R178, R180) -/

/-- An encoding that ends with `OK` is the body of `EMB` on a sequence that fits, run from a state
with the pixels and the layout that the command found. -/
theorem encoding_of_ok {i : Instr} (hi : i = .emb ∨ i = .enc) (h : exec i s = .next t)
    (hres : t.regs.result = 1#32) :
    ∃ u, t = embBody u ∧ 0 < nchOf u ∧ bitsLenOf u ≤ widthOf u * heightOf u ∧
      (∀ p, designatedCell u p = designatedCell s p) ∧ ∀ a, readPix u a = readPix s a := by
  have hrefused : t.regs.result ≠ 5#32 := by
    rw [hres]
    decide
  obtain ⟨-, -, hfit⟩ | ⟨hover, -⟩ := encodingEnd_exec hi h hrefused
  case inr =>
    rw [hres] at hover
    exact absurd hover (by decide)
  obtain rfl | rfl := hi
  case inl.inl =>
    obtain ⟨⟨hg, -⟩, rfl⟩ := accepted_of_result_ne h hrefused
    rw [bitsLenOf_embBody] at hfit
    exact ⟨s, rfl, nchOf_pos hg, hfit, fun _ => rfl, fun _ => rfl⟩
  case inl.inr =>
    obtain ⟨hok, rfl⟩ := accepted_of_result_ne h hrefused
    rw [bitsLenOf_embBody] at hfit
    refine ⟨withPayload s, rfl, nchOf_withPayload_pos hok, ?_, designatedCell_withPayload s,
      readPix_withPayload s⟩
    rw [widthOf_withPayload, heightOf_withPayload]
    exact hfit

/-- Settles O33: the cells outside are the frame of the scan, a cell inside holds `EmbedBit` of its
old value. -/
theorem encodersMutateOnlyTheLsb : Obligations.EncodersMutateOnlyTheLsb := by
  intro i s t hi _ h hres
  obtain ⟨u, rfl, hN, hfit, hcells, hpix⟩ := encoding_of_ok hi h hres
  rw [bitsLenOf_embBody]
  refine ⟨fun a ha => ?outside, fun p hp => ?inside⟩
  case outside =>
    rw [readPix_embBody_outside hfit fun p hp => (hcells p).symm ▸ ha p hp, hpix]
  case inside =>
    have hcell : readPix (embBody u) (p * nchOf s + chselOf s) =
        embedBit (readPix s (p * nchOf s + chselOf s)) (readBit u p) := by
      have hnew := readPix_embBody_inside hN hfit hp
      rwa [hcells, hpix] at hnew
    have hnum := toNat_embedBit (readPix s (p * nchOf s + chselOf s)) (readBit u p)
    have hbit := Bool.toNat_le (readBit u p)
    rw [hcell, getLsbD_zero_embedBit, bitsSeq_embBody]
    exact ⟨fun k hk => getLsbD_embedBit_of_pos _ _ hk, bitsSeq_getElem?_eq_some.mpr ⟨hp, rfl⟩,
      by omega, by omega⟩

/-- Settles O34 from the LSBs after an embedding, cut where the payload ends. -/
theorem encLeavesThePayloadInTheLsbs : Obligations.EncLeavesThePayloadInTheLsbs := by
  intro s hlegal h hfit
  have hfit' := withPayload_fits hlegal h hfit
  have hgrid : gridLsbs (embBody (withPayload s)) = payload (markerSeq s) (msgSeq s) ++
      (gridLsbs s).drop (8 * msgLenOf s + mlenOf s) := by
    rw [gridLsbs_embBody (nchOf_withPayload_pos h) hfit', bitsSeq_withPayload hlegal h,
      gridLsbs_withPayload, bitsLenOf_withPayload hlegal h]
  have hres : (embBody (withPayload s)).regs.result = 1#32 := by
    rw [embBody_frame_of_fits hfit']
  rw [← payload_msgSeq_length] at hgrid ⊢
  refine ⟨_, exec_enc_of_encOK h, hres, ?_, ?_⟩
  · rw [hgrid, List.take_left]
    rfl
  · rw [hgrid, List.drop_left]

end Sys2Proof.Machine
end

section
/-! PROOFS. Every command and every step ends with a next state (R205, R230). -/

namespace Sys2Proof.Machine

theorem completes_exec (i : Instr) (s : State) : Completes (exec i s) := by
  by_cases hok : CommandOK i s
  · exact ⟨_, exec_of_commandOK hok⟩
  · exact ⟨_, exec_of_not_commandOK hok⟩

/-- A reserved word ends with `ERR_CMD` (R223), which is a next state too. -/
theorem completes_issueCommand (s : State) (w : Word) : Completes (issueCommand s w) := by
  unfold issueCommand
  split
  next i _ => exact completes_exec i _
  next => exact ⟨_, rfl⟩

theorem completes_runEvent (e : HostEvent) (s : State) : Completes (runEvent e s) := by
  cases e with
  | read sp a => exact ⟨_, rfl⟩
  | write sp a d =>
    simp only [runEvent, hostWrite]
    split
    next => exact completes_issueCommand s d
    next => exact ⟨_, rfl⟩
  | reset => exact ⟨_, rfl⟩

/-- Settles O14: a command is a check with a next state on either side, and a step is one host
operation or none. -/
theorem everyCommandEnds : Obligations.EveryCommandEnds := by
  refine ⟨completes_exec, fun s => ?_⟩
  unfold step
  split
  next => exact ⟨s, rfl⟩
  next e rest _ => exact completes_runEvent e _

end Sys2Proof.Machine
end

section
/-! PROOFS. The bits the decoder's scan leaves in `BITS`: one step (R192), then all the pixels
visited before the scan stops (R193). -/

namespace Sys2Proof.Machine

/-! ### One step (R192) -/

theorem readBit_extractStep (s : State) (p a : Nat) :
    readBit (extractStep s p) a = if a = p then lsbAt s p else readBit s a :=
  readBit_writeBit s p (lsbAt s p) a

theorem readBits_extractStep (s : State) (p : Nat) :
    readBits (extractStep s p) 0 (p + 1) = readBits s 0 p ++ [lsbAt s p] := by
  have hbefore : readBits (extractStep s p) 0 p = readBits s 0 p :=
    readBits_congr s fun a _ ha => (readBit_extractStep s p a).trans (if_neg (by omega))
  have hnew : readBits (extractStep s p) (0 + p) 1 = [lsbAt s p] := by
    simp [readBits, readBit_extractStep]
  rw [readBits_add, hbefore, hnew]

/-- Settles O35: the frame by unfolding, the cells by the one read law of the step; the machine's
test is `MarkerMatch` in every state, and the step leaves the marker alone. -/
theorem extractStepAppendsOneBit : Obligations.ExtractStepAppendsOneBit := fun s p =>
  ⟨rfl, (readBit_extractStep s p p).trans (if_pos rfl),
    fun a ha => (readBit_extractStep s p a).trans (if_neg ha), readBits_extractStep s p,
    matchedAt_eq (extractStep s p) (p + 1)⟩

/-! ### The visited pixels (R193) -/

variable {s : State} {v n : Nat}

theorem scannedGrid_frame (s : State) (v n : Nat) :
    scannedGrid s v n =
      { s with bits := (scannedGrid s v n).bits,
               regs := { s.regs with bitsLen := BitVec.ofNat 32 n,
                                     cur := BitVec.ofNat 32 v } } := by
  have hcur : (scannedGrid s v n).regs.cur = BitVec.ofNat 32 v := scanned_setCur_cur s v
  rw [← hcur, scannedGrid_eq]

theorem curOf_scannedGrid (hv : v < 2 ^ 32) : curOf (scannedGrid s v n) = v :=
  curOf_scanned hv

theorem bitsLenOf_scannedGrid (hn : n < 2 ^ 32) : bitsLenOf (scannedGrid s v n) = n :=
  bitsLenOf_setBitsLen _ hn

theorem readOut_scannedGrid (s : State) (v n a : Nat) :
    readOut (scannedGrid s v n) a = readOut s a := by
  rw [scannedGrid_frame]
  rfl

theorem readBit_scannedGrid_beyond (s : State) (n : Nat) {a : Nat} (ha : v ≤ a) :
    readBit (scannedGrid s v n) a = readBit s a :=
  readBit_scanned_outside (setCur s 0) 0 v a (.inr (by omega))

theorem gridLsbs_take (hv : v ≤ capacityOf s) : (gridLsbs s).take v = lsbsFrom s 0 v := by
  rw [gridLsbs_eq, lsbsFrom_take _ _ _ _ hv]

theorem readBits_scannedGrid (hv : v ≤ capacityOf s) :
    readBits (scannedGrid s v n) 0 v = (gridLsbs s).take v := by
  have hbits := readBits_scanned (setCur s 0) 0 v rfl
  rw [Nat.zero_add] at hbits
  rw [gridLsbs_take hv]
  exact hbits

/-- The sequence kept is the first `n` of the bits visited. -/
theorem bitsSeq_scannedGrid (hn : n < 2 ^ 32) (hnv : n ≤ v) (hv : v ≤ capacityOf s) :
    bitsSeq (scannedGrid s v n) = (gridLsbs s).take n := by
  rw [bitsSeq, bitsLenOf_scannedGrid hn, ← readBits_take _ 0 v n hnv, readBits_scannedGrid hv,
    List.take_take, Nat.min_eq_left hnv]

end Sys2Proof.Machine
end

section
/-! PROOFS. The commands `EXT` and `DEC`: the state each ends in, according to where the grid's LSBs
first hold the marker (R193, R197, R200). -/

namespace Sys2Proof.Machine

variable {s : State} {f : Nat}

/-! ### The state after a match, and without one -/

theorem capacityOf_lt (hlegal : s.sizes.Legal) (hc : ScanOK s) : capacityOf s < 2 ^ 32 := by
  obtain ⟨⟨hdim, -⟩, -⟩ := hc
  exact capacity_lt_of_dimOK hlegal hdim

/-- A match in the grid's LSBs ends at one of the grid's pixels. -/
theorem le_capacityOf_of_match (h : firstMatch (markerSeq s) (gridLsbs s) = some f) :
    f ≤ capacityOf s := by
  obtain ⟨-, hf, -⟩ := firstMatch_some h
  rwa [gridLsbs_length] at hf

theorem exec_ext_of_match (hc : ScanOK s)
    (h : firstMatch (markerSeq s) (gridLsbs s) = some f) :
    exec .ext s = .next (raise .ok (scannedGrid s f (f - mlenOf s))) := by
  have ⟨_, ⟨hM, _⟩, _⟩ := hc
  have hbody : extBody s = raise .ok (scannedGrid s f (f - mlenOf s)) := extBody_found hM h
  rw [exec_of_commandOK (i := .ext) hc, commandBody, hbody]

theorem exec_ext_of_no_match (hc : ScanOK s)
    (h : firstMatch (markerSeq s) (gridLsbs s) = none) :
    exec .ext s = .next (raise .notFound (scannedGrid s (capacityOf s) (capacityOf s))) := by
  rw [exec_of_commandOK (i := .ext) hc, commandBody, extBody_notFound h, scannedGrid]

theorem decTail_raise_ok (u : State) : decTail (raise .ok u) = raise .ok (b2tBody u) := by
  rw [← raise_raise .ok .ok (b2tBody u), ← b2tBody_raise]
  exact if_pos rfl

theorem decTail_raise_notFound (u : State) :
    decTail (raise .notFound u) = raise .notFound (setOutLen u 0) :=
  if_neg (show resultCode .notFound ≠ resultCode .ok by decide)

/-- `DEC` goes on from the state in which `EXT` ends. -/
theorem exec_dec_of_ext {u : State} (hc : ScanOK s) (h : exec .ext s = .next u) :
    exec .dec s = .next (decTail u) := by
  rw [exec_of_commandOK (i := .ext) hc] at h
  rw [exec_of_commandOK (i := .dec) hc, ← Host.Outcome.next.inj h]
  rfl

theorem exec_dec_of_match (hc : ScanOK s)
    (h : firstMatch (markerSeq s) (gridLsbs s) = some f) :
    exec .dec s = .next (raise .ok (b2tBody (scannedGrid s f (f - mlenOf s)))) :=
  (exec_dec_of_ext hc (exec_ext_of_match hc h)).trans (congrArg _ (decTail_raise_ok _))

theorem exec_dec_of_no_match (hc : ScanOK s)
    (h : firstMatch (markerSeq s) (gridLsbs s) = none) :
    exec .dec s =
      .next (raise .notFound (setOutLen (scannedGrid s (capacityOf s) (capacityOf s)) 0)) :=
  (exec_dec_of_ext hc (exec_ext_of_no_match hc h)).trans (congrArg _ (decTail_raise_notFound _))

/-! ### What the scan leaves -/

/-- After a match at `f`: the bits visited, of which the marker is not kept. -/
theorem scannedGrid_of_match (hlegal : s.sizes.Legal) (hc : ScanOK s)
    (h : firstMatch (markerSeq s) (gridLsbs s) = some f) :
    bitsLenOf (scannedGrid s f (f - mlenOf s)) = f - mlenOf s ∧
      curOf (scannedGrid s f (f - mlenOf s)) = f ∧
      readBits (scannedGrid s f (f - mlenOf s)) 0 f = (gridLsbs s).take f ∧
      bitsSeq (scannedGrid s f (f - mlenOf s)) = (gridLsbs s).take (f - mlenOf s) := by
  have hf := le_capacityOf_of_match h
  have hcap := capacityOf_lt hlegal hc
  have hkept : f - mlenOf s < 2 ^ 32 := by omega
  exact ⟨bitsLenOf_scannedGrid hkept, curOf_scannedGrid (by omega), readBits_scannedGrid hf,
    bitsSeq_scannedGrid hkept (Nat.sub_le _ _) hf⟩

/-- Without a match: the bits of the whole grid, all kept. -/
theorem scannedGrid_of_no_match (hlegal : s.sizes.Legal) (hc : ScanOK s) :
    bitsLenOf (scannedGrid s (capacityOf s) (capacityOf s)) = capacityOf s ∧
      curOf (scannedGrid s (capacityOf s) (capacityOf s)) = capacityOf s ∧
      bitsSeq (scannedGrid s (capacityOf s) (capacityOf s)) = gridLsbs s := by
  have hcap := capacityOf_lt hlegal hc
  refine ⟨bitsLenOf_scannedGrid hcap, curOf_scannedGrid hcap, ?_⟩
  rw [bitsSeq_scannedGrid hcap le_rfl le_rfl, List.take_of_length_le (gridLsbs_length s).le]

/-- Settles O36: the bits are those of the scan, up to the match or to the end of the grid. -/
theorem extExtractsUpToTheFirstMatch : Obligations.ExtExtractsUpToTheFirstMatch := by
  refine ⟨by decide, fun s S hlegal hS => ?_⟩
  obtain rfl : S = gridLsbs s := hS
  refine ⟨fun hc f h => ?found, fun hc h => ?notFound, exec_of_not_commandOK (i := .ext)⟩
  case found =>
    obtain ⟨hlen, hcur, hbits, hseq⟩ := scannedGrid_of_match hlegal hc h
    refine ⟨_, exec_ext_of_match hc h, ?_, hlen, hcur, hbits, hseq,
      fun a => readBit_scannedGrid_beyond s (f - mlenOf s)⟩
    rw [scannedGrid_frame]
    rfl
  case notFound =>
    obtain ⟨hlen, hcur, hseq⟩ := scannedGrid_of_no_match hlegal hc
    refine ⟨_, exec_ext_of_no_match hc h, ?_, hlen, hcur, hseq,
      fun a => readBit_scannedGrid_beyond s (capacityOf s)⟩
    rw [scannedGrid_frame]
    rfl

/-! ### What the text conversion of `DEC` leaves alone (R200) -/

@[simp] theorem bitsLenOf_b2tBody (s : State) : bitsLenOf (b2tBody s) = bitsLenOf s := by
  simp [b2tBody]

@[simp] theorem curOf_b2tBody (s : State) : curOf (b2tBody s) = curOf s := by
  simp [b2tBody]

@[simp] theorem readBit_b2tBody (s : State) (a : Nat) : readBit (b2tBody s) a = readBit s a := by
  simp [b2tBody]

@[simp] theorem readBits_b2tBody (s : State) (a n : Nat) :
    readBits (b2tBody s) a n = readBits s a n := by
  simp [readBits]

@[simp] theorem readBits_raise (k : ResultKind) (s : State) (a n : Nat) :
    readBits (raise k s) a n = readBits s a n := rfl

theorem bitsSeq_setOutLen (s : State) (n : Nat) : bitsSeq (setOutLen s n) = bitsSeq s := rfl

theorem b2tBody_outLen (s : State) :
    (b2tBody s).regs.outLen = BitVec.ofNat 32 (bitsLenOf s / 8) := rfl

/-- The text `DEC` recovers after a match at `f`. -/
theorem text_of_match (hlegal : s.sizes.Legal) (hc : ScanOK s)
    (h : firstMatch (markerSeq s) (gridLsbs s) = some f) :
    outLenOf (b2tBody (scannedGrid s f (f - mlenOf s))) = (f - mlenOf s) / 8 ∧
      outSeq (b2tBody (scannedGrid s f (f - mlenOf s))) =
        bitsToText ((gridLsbs s).take (f - mlenOf s)) := by
  obtain ⟨hlen, -, -, hseq⟩ := scannedGrid_of_match hlegal hc h
  rw [outLenOf_b2tBody, outSeq_b2tBody, hlen, hseq]
  exact ⟨rfl, rfl⟩

/-- Settles O37: the scan as in `EXT`, then the text of the bits kept, or none. -/
theorem decRecoversTheText : Obligations.DecRecoversTheText := by
  refine ⟨by decide, fun s S hlegal hS => ?_⟩
  obtain rfl : S = gridLsbs s := hS
  refine ⟨fun hc f h => ?found, fun hc h => ?notFound, exec_of_not_commandOK (i := .dec)⟩
  case found =>
    obtain ⟨hlen, hcur, hbits, hseq⟩ := scannedGrid_of_match hlegal hc h
    obtain ⟨houtLen, hout⟩ := text_of_match hlegal hc h
    refine ⟨_, exec_dec_of_match hc h, ?frame, by simpa using hlen, by simpa using hcur, houtLen,
      by simpa using hbits, by simpa [bitsSeq] using hseq, fun a ha => ?bits, hout,
      fun a ha => ?text⟩
    case frame =>
      have hreg : (b2tBody (scannedGrid s f (f - mlenOf s))).regs.outLen =
          BitVec.ofNat 32 ((f - mlenOf s) / 8) := by
        rw [b2tBody_outLen, hlen]
      rw [b2tBody_frame, hreg, scannedGrid_frame]
      rfl
    case bits => simpa using readBit_scannedGrid_beyond s (f - mlenOf s) ha
    case text =>
      rw [readOut_raise, readOut_b2tBody_beyond (by rwa [hlen]), readOut_scannedGrid]
  case notFound =>
    obtain ⟨hlen, hcur, hseq⟩ := scannedGrid_of_no_match hlegal hc
    refine ⟨_, exec_dec_of_no_match hc h, ?_, (setOutLen_bitsLenOf _ 0).trans hlen,
      (setOutLen_curOf _ 0).trans hcur, (bitsSeq_setOutLen _ 0).trans hseq,
      fun a => readBit_scannedGrid_beyond s (capacityOf s)⟩
    rw [scannedGrid_frame]
    rfl

/-- Settles O38: without pixels the scan has no step. -/
theorem emptyGridIsNotFound : Obligations.EmptyGridIsNotFound := by
  intro s hc hempty
  have hext : exec .ext s = .next { s with regs := { s.regs with bitsLen := 0#32, cur := 0#32,
                                                                 result := 3#32 } } := by
    have hcap : capacityOf s = 0 := hempty
    rw [exec_of_commandOK (i := .ext) hc, commandBody, extBody, hcap]
    rfl
  exact ⟨hext, exec_dec_of_ext hc hext⟩

end Sys2Proof.Machine
end

section
/-! PROOFS. Sequences that must or cannot hold the marker, and what `EXT` and `DEC` make of grids
with such LSBs (R198, R199). -/

namespace Sys2Proof.Machine

variable {mk s s' : List Bit}

/-! ### First matches -/

/-- R144: the marker is at the end. -/
theorem markerMatch_iff_suffix : markerMatch mk s = true ↔ mk <:+ s :=
  (markerMatch_iff mk s).trans ⟨fun ⟨_, h⟩ => List.suffix_iff_eq_drop.mpr h.symm,
    fun h => ⟨h.length_le, (List.suffix_iff_eq_drop.mp h).symm⟩⟩

/-- The first match at `f` is decided by the first `f` bits. -/
theorem firstMatch_of_take_eq {f : Nat} (h : firstMatch mk s = some f) (hf : f ≤ s'.length)
    (heq : s'.take f = s.take f) : firstMatch mk s' = some f := by
  obtain ⟨-, hmatch, hleast⟩ := firstMatch_eq_some_iff.mp h
  refine firstMatch_eq_some_iff.mpr ⟨hf, heq ▸ hmatch, fun n hn => ?_⟩
  have htake := congrArg (List.take n) heq
  rw [List.take_take, List.take_take, Nat.min_eq_left hn.le] at htake
  rw [htake, hleast n hn]

/-- A sequence that begins with the marker matches there. -/
theorem firstMatch_of_marker_first (h : s.take mk.length = mk) :
    firstMatch mk s = some mk.length := by
  have hlen : mk.length ≤ s.length := by
    rw [← h, List.length_take]
    exact Nat.min_le_right _ _
  refine firstMatch_eq_some_iff.mpr ⟨hlen, ?_, fun n hn => ?_⟩
  · rw [h, markerMatch_iff_suffix]
  · exact markerMatch_of_shorter (by rw [List.length_take]; omega)

/-- A bit of the marker that the sequence does not hold rules out every match. -/
theorem firstMatch_eq_none_of_absent {b : Bit} (hb : b ∈ mk) (hs : b ∉ s) :
    firstMatch mk s = none :=
  firstMatch_eq_none_iff.mpr fun _ _ => Bool.eq_false_iff.mpr fun hmatch =>
    hs (List.mem_of_mem_take ((markerMatch_iff_suffix.mp hmatch).subset hb))

/-- In a sequence no longer than the marker, only the marker itself matches. -/
theorem firstMatch_eq_none_of_length_le (hlen : s.length ≤ mk.length) (hne : s ≠ mk) :
    firstMatch mk s = none := by
  refine firstMatch_eq_none_iff.mpr fun _ _ => Bool.eq_false_iff.mpr fun hmatch => hne ?_
  have hsuffix := markerMatch_iff_suffix.mp hmatch
  have hle := hsuffix.length_le
  rw [List.length_take] at hle
  rw [List.take_of_length_le (by omega)] at hsuffix
  exact (hsuffix.eq_of_length (by omega)).symm

/-! ### Grids no larger than the marker (R198) -/

/-- Settles O39: such a grid's LSBs are no longer than the marker, so they match only when they are
the marker. -/
theorem gridNoLargerThanTheMarker : Obligations.GridNoLargerThanTheMarker := by
  intro s hlegal hc
  refine ⟨fun hsmall => ?smaller, fun hequal => ?equal⟩
  case smaller =>
    have hlen : (gridLsbs s).length < (markerSeq s).length := by
      rwa [gridLsbs_length, markerSeq_length]
    have hnone : firstMatch (markerSeq s) (gridLsbs s) = none :=
      firstMatch_eq_none_of_length_le hlen.le fun heq => by rw [heq] at hlen; omega
    obtain ⟨hbits, hcur, hseq⟩ := scannedGrid_of_no_match hlegal hc
    exact ⟨_, exec_ext_of_no_match hc hnone, rfl, hbits, hcur, hseq⟩
  case equal =>
    have hlen : (gridLsbs s).length = (markerSeq s).length := by
      rwa [gridLsbs_length, markerSeq_length]
    by_cases heq : gridLsbs s = markerSeq s
    · have hsome : firstMatch (markerSeq s) (gridLsbs s) = some (mlenOf s) := by
        rw [firstMatch_of_marker_first (by rw [← hlen, List.take_length, heq]), markerSeq_length]
      obtain ⟨hbits, -⟩ := scannedGrid_of_match hlegal hc hsome
      rw [Nat.sub_self] at hbits
      exact ⟨_, exec_ext_of_match hc hsome, fun _ => ⟨rfl, by simpa using hbits⟩,
        fun hne => absurd heq hne⟩
    · exact ⟨_, exec_ext_of_no_match hc (firstMatch_eq_none_of_length_le hlen.le heq),
        fun h => absurd h heq, fun _ => rfl⟩

/-! ### Even and odd designated values (R199) -/

/-- An LSB tells an even value from an odd one. -/
theorem toNat_lsbAt (s : State) (p : Nat) :
    (lsbAt s p).toNat = (readPix s (designatedCell s p)).toNat % 2 :=
  toNat_lsb _

theorem gridLsbs_take_of_even {s : State} {n : Nat} (hn : n ≤ capacityOf s)
    (heven : ∀ p, p < n → (readPix s (designatedCell s p)).toNat % 2 = 0) :
    (gridLsbs s).take n = List.replicate n false := by
  refine List.eq_replicate_iff.mpr ⟨by simpa using hn, fun b hb => ?_⟩
  rw [gridLsbs_take hn, lsbsFrom] at hb
  obtain ⟨p, hp, rfl⟩ := List.mem_map.mp hb
  have hbit := heven p (List.mem_range.mp hp)
  rw [← toNat_lsbAt, Bool.toNat_eq_zero] at hbit
  rwa [Nat.zero_add]

theorem false_not_mem_gridLsbs_of_odd {s : State}
    (hodd : ∀ p, p < capacityOf s → (readPix s (designatedCell s p)).toNat % 2 = 1) :
    false ∉ gridLsbs s := by
  intro hmem
  obtain ⟨p, hp, hbit⟩ := List.mem_map.mp hmem
  have hone := hodd p (List.mem_range.mp hp)
  rw [← toNat_lsb, ← extractBit, hbit] at hone
  cases hone

theorem outSeq_raise (k : ResultKind) (s : State) : outSeq (raise k s) = outSeq s := rfl

/-- Settles O40: eight even values are the marker, and among odd ones there is no 0. -/
theorem untouchedGridsCanMatch : Obligations.UntouchedGridsCanMatch := by
  intro s hlegal hc hzeros
  have hlen : mlenOf s = 8 := by rw [← markerSeq_length, hzeros, List.length_replicate]
  refine ⟨fun hcap heven => ?even, fun hodd => ?odd⟩
  case even =>
    have hsome : firstMatch (markerSeq s) (gridLsbs s) = some 8 := by
      rw [hzeros]
      exact firstMatch_of_marker_first (gridLsbs_take_of_even hcap heven)
    obtain ⟨hbits, hcur, -⟩ := scannedGrid_of_match hlegal hc hsome
    obtain ⟨-, hout⟩ := text_of_match hlegal hc hsome
    rw [hlen] at hbits hcur hout
    have hexec := exec_dec_of_match hc hsome
    rw [hlen] at hexec
    exact ⟨_, hexec, rfl, by simpa using hbits, by simpa using hcur,
      (outSeq_raise .ok _).trans hout⟩
  case odd =>
    have hnone : firstMatch (markerSeq s) (gridLsbs s) = none :=
      firstMatch_eq_none_of_absent (b := false) (by rw [hzeros]; decide)
        (false_not_mem_gridLsbs_of_odd hodd)
    exact ⟨_, exec_dec_of_no_match hc hnone, rfl⟩

end Sys2Proof.Machine
end

section
/-! PROOFS. What the decoder depends on: of the pixels it visited the LSBs, of the dimensions their
product (R191, R194, R204). Both changes are one, a grid in the place of another. -/

namespace Sys2Proof.Machine

/-- The state with other contents of `PIX` and other dimensions. -/
def withGrid (s : State) (m : Memory Byte) (w h : Word) : State :=
  { s with pix := m, regs := { s.regs with width := w, height := h } }

/-- A grid of dimensions `w` and `h` lets a scan of the grid of `s` that ended in `t` end there: it
reaches a match, and without one it has as many pixels (R204). -/
def GridReaches (s t : State) (w h : Word) : Prop :=
  (t.regs.result = 1#32 ∧ curOf t ≤ w.toNat * h.toNat) ∨
    (t.regs.result = 3#32 ∧ w.toNat * h.toNat = widthOf s * heightOf s)

variable {s t : State} {m : Memory Byte} {w h : Word}

theorem withGrid_of_dims (hw : s.regs.width = w) (hh : s.regs.height = h) :
    withGrid s m w h = { s with pix := m } := by
  rw [withGrid, ← hw, ← hh]

theorem withGrid_of_pix (hpix : s.pix = m) :
    withGrid s m w h = { s with regs := { s.regs with width := w, height := h } } := by
  rw [withGrid, ← hpix]

/-! ### The operations of the decoder on another grid -/

theorem lsbsFrom_congr {s s' : State} {v : Nat} (heq : ∀ p, p < v → lsbAt s' p = lsbAt s p) :
    lsbsFrom s' 0 v = lsbsFrom s 0 v :=
  List.map_congr_left fun p hp => heq (0 + p) (by have := List.mem_range.mp hp; omega)

theorem scannedGrid_withGrid {v : Nat} (n : Nat)
    (heq : lsbsFrom (withGrid s m w h) 0 v = lsbsFrom s 0 v) :
    scannedGrid (withGrid s m w h) v n = withGrid (scannedGrid s v n) m w h := by
  rw [scannedGrid_eq, heq, scannedGrid_eq]
  rfl

theorem b2tBody_withGrid (s : State) (m : Memory Byte) (w h : Word) :
    b2tBody (withGrid s m w h) = withGrid (b2tBody s) m w h := by
  rw [b2tBody, b2tBody, writeOuts_eq, writeOuts_eq]
  rfl

theorem decTail_withGrid (s : State) (m : Memory Byte) (w h : Word) :
    decTail (withGrid s m w h) = withGrid (decTail s) m w h := by
  by_cases hok : s.regs.result = resultCode .ok
  · rw [show decTail s = raise .ok (b2tBody s) from if_pos hok,
      show decTail (withGrid s m w h) = raise .ok (b2tBody (withGrid s m w h)) from if_pos hok,
      b2tBody_withGrid]
    rfl
  · rw [show decTail s = setOutLen s 0 from if_neg hok,
      show decTail (withGrid s m w h) = setOutLen (withGrid s m w h) 0 from if_neg hok]
    rfl

/-! ### The commands on another grid -/

/-- With the same LSBs in the pixels visited the scan of the other grid ends where the first one
did. -/
theorem exec_ext_withGrid (hlegal : s.sizes.Legal) (hc : ScanOK s)
    (hc' : ScanOK (withGrid s m w h)) (hext : exec .ext s = .next t) (hreach : GridReaches s t w h)
    (hlsbs : ∀ p, p < curOf t → lsbAt (withGrid s m w h) p = lsbAt s p) :
    exec .ext (withGrid s m w h) = .next (withGrid t m w h) := by
  cases hfm : firstMatch (markerSeq s) (gridLsbs s) with
  | some f =>
    rw [exec_ext_of_match hc hfm] at hext
    obtain rfl := Host.Outcome.next.inj hext
    obtain ⟨-, hcur, -⟩ := scannedGrid_of_match hlegal hc hfm
    rw [raise_curOf, hcur] at hlsbs
    have hseen := lsbsFrom_congr hlsbs
    obtain ⟨-, hle⟩ | ⟨hres, -⟩ := hreach
    case inr => cases hres
    rw [raise_curOf, hcur] at hle
    have hfm' : firstMatch (markerSeq (withGrid s m w h)) (gridLsbs (withGrid s m w h)) = some f :=
      firstMatch_of_take_eq hfm (by rwa [gridLsbs_length])
        (by rw [gridLsbs_take hle, gridLsbs_take (le_capacityOf_of_match hfm), hseen])
    rw [exec_ext_of_match hc' hfm', scannedGrid_withGrid _ hseen]
    rfl
  | none =>
    rw [exec_ext_of_no_match hc hfm] at hext
    obtain rfl := Host.Outcome.next.inj hext
    obtain ⟨-, hcur, -⟩ := scannedGrid_of_no_match hlegal hc
    rw [raise_curOf, hcur] at hlsbs
    have hseen := lsbsFrom_congr hlsbs
    obtain ⟨hres, -⟩ | ⟨-, hprod⟩ := hreach
    case inl => cases hres
    have hcap : capacityOf (withGrid s m w h) = capacityOf s := hprod
    have hfm' : firstMatch (markerSeq (withGrid s m w h)) (gridLsbs (withGrid s m w h)) = none := by
      rw [gridLsbs_eq, hcap, hseen, ← gridLsbs_eq]
      exact hfm
    rw [exec_ext_of_no_match hc' hfm', hcap, scannedGrid_withGrid _ hseen]
    rfl

theorem exec_withGrid {i : Instr} (hi : i = .ext ∨ i = .dec) (hlegal : s.sizes.Legal)
    (hc : ScanOK s) (hc' : ScanOK (withGrid s m w h)) (hexec : exec i s = .next t)
    (hreach : GridReaches s t w h)
    (hlsbs : ∀ p, p < curOf t → lsbAt (withGrid s m w h) p = lsbAt s p) :
    exec i (withGrid s m w h) = .next (withGrid t m w h) := by
  obtain rfl | rfl := hi
  case inl => exact exec_ext_withGrid hlegal hc hc' hexec hreach hlsbs
  case inr =>
    obtain ⟨u, hext⟩ := completes_exec .ext s
    rw [exec_dec_of_ext hc hext] at hexec
    obtain rfl := Host.Outcome.next.inj hexec
    obtain ⟨hres, hcur, -⟩ := decTail_scan_registers u
    rw [GridReaches, hres, hcur] at hreach
    rw [hcur] at hlsbs
    rw [exec_dec_of_ext hc' (exec_ext_withGrid hlegal hc hc' hext hreach hlsbs), decTail_withGrid]

/-- The decoder writes neither the pixels nor the dimensions. -/
theorem grid_of_exec {i : Instr} (hi : i = .ext ∨ i = .dec) (hexec : exec i s = .next t) :
    t.pix = s.pix ∧ t.regs.width = s.regs.width ∧ t.regs.height = s.regs.height := by
  obtain ⟨-, -, -, -, -, -, -, hw, hh, -, -, -, -, hpix, -⟩ :=
    commandsWriteOnlyWhatTheTableLists i s t hexec
  obtain ⟨hemb, henc⟩ : i ≠ .emb ∧ i ≠ .enc := by obtain rfl | rfl := hi <;> decide
  exact ⟨hpix hemb henc, hw, hh⟩

theorem scanOK_of_result_ne {i : Instr} (hi : i = .ext ∨ i = .dec) (hexec : exec i s = .next t)
    (hres : t.regs.result ≠ 5#32) : ScanOK s := by
  obtain rfl | rfl := hi
  all_goals
    obtain ⟨hc, -⟩ := accepted_of_result_ne hexec hres
    exact hc

/-- Settles O41: other pixels in a grid of the same dimensions. -/
theorem decoderReadsOnlyVisitedLsbs : Obligations.DecoderReadsOnlyVisitedLsbs := by
  intro i s t pix' hi hlegal hexec hres hlsbs
  have hc := scanOK_of_result_ne hi hexec hres
  have hend := decodingEnd_exec hi hlegal hexec hres
  have hreach : GridReaches s t s.regs.width s.regs.height :=
    hend.imp (fun ⟨hok, _, hle⟩ => ⟨hok, hle⟩) fun ⟨hnone, _⟩ => ⟨hnone, rfl⟩
  refine ⟨hend.symm.imp And.left And.left, ?_⟩
  have hother := exec_withGrid (m := pix') hi hlegal hc hc hexec hreach hlsbs
  obtain ⟨-, hw, hh⟩ := grid_of_exec hi hexec
  rwa [withGrid_of_dims hw hh] at hother

/-- Settles O42: other dimensions for the same pixels. -/
theorem dimensionsEnterThroughTheirProduct : Obligations.DimensionsEnterThroughTheirProduct := by
  intro i s t w h hi hlegal hc hc' hexec hreach
  have hother := exec_withGrid (m := s.pix) hi hlegal hc hc' hexec hreach fun _ _ => rfl
  obtain ⟨hpix, -⟩ := grid_of_exec hi hexec
  rwa [withGrid_of_pix hpix] at hother

end Sys2Proof.Machine
end

section
/-! PROOFS. `DEC` on what `ENC` left: the text up to the first match in the payload (R201, R202). -/

namespace Sys2Proof.Machine

variable {s : State} {f : Nat}

/-! ### Texts cut short -/

/-- The text of the first `k` bits of a message is its whole bytes among them. -/
theorem bitsToText_take_textToBits (m : List Byte) (k : Nat) :
    bitsToText ((textToBits m).take k) = m.take (k / 8) := by
  induction m generalizing k with
  | nil => simp [bitsToText]
  | cons v m ih =>
    rw [textToBits_cons, List.take_append, byteBits_length]
    by_cases hk : 8 ≤ k
    · have hdiv : k / 8 = (k - 8) / 8 + 1 := by omega
      rw [List.take_of_length_le (by rwa [byteBits_length]), bitsToText_byteBits_append, ih, hdiv,
        List.take_succ_cons]
    · have hdiv : k / 8 = 0 := by omega
      rw [hdiv, List.take_zero, ← List.length_eq_zero_iff, bitsToText_length, List.length_append,
        List.length_take, List.length_take, byteBits_length]
      omega

theorem bitsToText_take_payload (mk : List Bit) {m : List Byte} {k : Nat}
    (hk : k ≤ 8 * m.length) : bitsToText ((payload mk m).take k) = m.take (k / 8) := by
  rw [payload, List.take_append_of_le_length (by rwa [textToBits_length]),
    bitsToText_take_textToBits]

/-- Bits that follow cannot change the first match. -/
theorem firstMatch_append {mk l : List Bit} (h : firstMatch mk l = some f) (r : List Bit) :
    firstMatch mk (l ++ r) = some f := by
  obtain ⟨-, hf, -⟩ := firstMatch_some h
  exact firstMatch_of_take_eq h (by rw [List.length_append]; omega)
    (List.take_append_of_le_length hf)

/-! ### The state `ENC` leaves -/

theorem scanOK_commandBody (i : Instr) (hc : ScanOK s) : ScanOK (commandBody i s) := by
  rw [commandBody_frame]
  generalize commandBody i s = u
  exact hc

theorem markerSeq_commandBody (i : Instr) (s : State) :
    markerSeq (commandBody i s) = markerSeq s := by
  rw [commandBody_frame]
  generalize commandBody i s = u
  rfl

theorem gridLsbs_commandBody_enc (hlegal : s.sizes.Legal) (h : EncOK s)
    (hfit : 8 * msgLenOf s + mlenOf s ≤ widthOf s * heightOf s) :
    gridLsbs (commandBody .enc s) =
      payload (markerSeq s) (msgSeq s) ++ (gridLsbs s).drop (8 * msgLenOf s + mlenOf s) := by
  have hgrid := gridLsbs_embBody (nchOf_withPayload_pos h) (withPayload_fits hlegal h hfit)
  rwa [bitsSeq_withPayload hlegal h, gridLsbs_withPayload, bitsLenOf_withPayload hlegal h] at hgrid

theorem result_commandBody_enc (hlegal : s.sizes.Legal) (h : EncOK s)
    (hfit : 8 * msgLenOf s + mlenOf s ≤ widthOf s * heightOf s) :
    (commandBody .enc s).regs.result = 1#32 := by
  show (embBody (withPayload s)).regs.result = 1#32
  rw [embBody_frame_of_fits (withPayload_fits hlegal h hfit)]

/-! ### `DEC` after `ENC` -/

/-- `DEC` stops at the first match in the payload and recovers the whole bytes before it. -/
theorem dec_after_enc (hlegal : s.sizes.Legal) (h : EncOK s) (hc : ScanOK s)
    (hfit : 8 * msgLenOf s + mlenOf s ≤ widthOf s * heightOf s)
    (hf : firstMatch (markerSeq s) (payload (markerSeq s) (msgSeq s)) = some f) :
    ∃ u, exec .dec (commandBody .enc s) = .next u ∧ u.regs.result = 1#32 ∧ curOf u = f ∧
      bitsLenOf u = f - mlenOf s ∧ outLenOf u = (f - mlenOf s) / 8 ∧
      outSeq u = bitsToText ((payload (markerSeq s) (msgSeq s)).take (f - mlenOf s)) := by
  have hgrid := gridLsbs_commandBody_enc hlegal h hfit
  have hmarker := markerSeq_commandBody .enc s
  have hmatch : firstMatch (markerSeq (commandBody .enc s)) (gridLsbs (commandBody .enc s)) =
      some f := by
    rw [hmarker, hgrid]
    exact firstMatch_append hf _
  have hmlen : mlenOf (commandBody .enc s) = mlenOf s := by
    rw [← markerSeq_length, hmarker, markerSeq_length]
  have hsizes : (commandBody .enc s).sizes = s.sizes := by rw [commandBody_frame]
  have hcut : f - mlenOf s ≤ (payload (markerSeq s) (msgSeq s)).length := by
    obtain ⟨-, hle, -⟩ := firstMatch_some hf
    omega
  obtain ⟨-, hdec⟩ := decRecoversTheText
  obtain ⟨hfound, -⟩ := hdec (commandBody .enc s) (gridLsbs _) (hsizes ▸ hlegal) rfl
  obtain ⟨u, hexec, hframe, hlen, hcur, houtLen, -, -, -, hout, -⟩ :=
    hfound (scanOK_commandBody .enc hc) f hmatch
  rw [hmlen] at hlen houtLen hout
  rw [hgrid, List.take_append_of_le_length hcut] at hout
  exact ⟨u, hexec, by rw [hframe], hcur, hlen, houtLen, hout⟩

/-- Settles O43: the first match is at the end of the payload, so the text before it is the
message. -/
theorem roundTrip : Obligations.RoundTrip := by
  intro s hlegal h hc hfit hno
  rw [NoEarlyMarker, msgSeq_length, markerSeq_length] at hno
  obtain ⟨u, hexec, hres, hcur, hlen, houtLen, hout⟩ := dec_after_enc hlegal h hc hfit hno
  rw [Nat.add_sub_cancel] at hlen houtLen hout
  rw [Nat.mul_div_cancel_left _ (by decide)] at houtLen
  have htext : outSeq u = msgSeq s := by
    rw [hout, bitsToText_take_payload _ (by rw [msgSeq_length]),
      Nat.mul_div_cancel_left _ (by decide), List.take_of_length_le (msgSeq_length s).le]
  exact ⟨_, u, exec_of_commandOK (i := .enc) h, result_commandBody_enc hlegal h hfit, hexec, hres,
    htext, houtLen, hlen, hcur⟩

/-- Settles O44: the match comes before the end of the payload, so the text before it lacks at least
the last byte. -/
theorem earlyMarkerTruncates : Obligations.EarlyMarkerTruncates := by
  intro s f hlegal h hc hfit hf hearly
  obtain ⟨hMf, -⟩ := firstMatch_some hf
  rw [markerSeq_length] at hMf
  obtain ⟨u, hexec, hres, hcur, hlen, houtLen, hout⟩ := dec_after_enc hlegal h hc hfit hf
  obtain ⟨-, hseq, -⟩ := bits_embBody_withPayload hlegal h
  refine ⟨_, u, exec_of_commandOK (i := .enc) h, result_commandBody_enc hlegal h hfit, hseq, ?lsbs,
    hexec, hres, hcur, hlen, hout, ?cut, by omega⟩
  case lsbs =>
    rw [gridLsbs_commandBody_enc hlegal h hfit, ← payload_msgSeq_length, List.take_left]
  case cut =>
    rw [hout, bitsToText_take_payload _ (by rw [msgSeq_length]; omega)]
    exact List.take_prefix _ _

end Sys2Proof.Machine
end

section
/-! PROOFS. What the 8-bit zero marker loses (R203): where the first window of zeros stands in a
message followed by zeros. -/

namespace Sys2Proof.Machine

variable {l : List Bit} {n e : Nat}

theorem true_mem_window_iff {i : Nat} :
    true ∈ (l.drop i).take n ↔ ∃ k, k < n ∧ l[i + k]? = some true := by
  simp only [List.mem_iff_getElem?, List.getElem?_take, List.getElem?_drop,
    Option.ite_none_right_eq_some]

/-- Bits followed by `n` zeros match a marker of `n` zeros first behind position `e`, when from `e`
on the next `n` hold no 1, the bit before `e` is a 1 and no whole window before it is all zeros. -/
theorem firstMatch_zeros (he : e ≤ l.length)
    (hbefore : ∀ j, j + n ≤ e → (l.drop j).take n ≠ List.replicate n false)
    (hlast : e = 0 ∨ l[e - 1]? = some true) (hrun : true ∉ (l.drop e).take n) :
    firstMatch (List.replicate n false) (l ++ List.replicate n false) = some (e + n) := by
  have hone : ∀ j, j < e → true ∈ (l.drop j).take n := by
    intro j hj
    by_cases hwhole : j + n ≤ e
    · have hlen : ((l.drop j).take n).length = n := by
        rw [List.length_take, List.length_drop]
        omega
      by_contra hnot
      exact hbefore j hwhole (eq_zeros_iff.mpr ⟨hlen, hnot⟩)
    · have hpos : j + (e - 1 - j) = e - 1 := by omega
      exact true_mem_window_iff.mpr
        ⟨e - 1 - j, by omega, by rw [hpos, hlast.resolve_left (by omega)]⟩
  have hwindow : ∀ j, j ≤ l.length →
      (markerMatch (List.replicate n false) ((l ++ List.replicate n false).take (j + n)) = true ↔
        true ∉ (l.drop j).take n) := by
    intro j hj
    have htake := markerMatch_take_iff_window (mk := List.replicate n false)
      (s := l ++ List.replicate n false) (i := j) (by simpa using hj)
    rw [List.length_replicate] at htake
    exact htake.trans (window_eq_zeros_iff hj)
  refine firstMatch_eq_some_iff.mpr ⟨by simpa using he, (hwindow e he).mpr hrun, fun k hk => ?_⟩
  refine markerMatch_take_eq_false fun hM => Bool.eq_false_iff.mpr fun hmatch => ?_
  rw [List.length_replicate] at hM
  obtain ⟨j, rfl⟩ := Nat.exists_eq_add_of_le' hM
  exact (hwindow j (by omega)).mp hmatch (hone j (by omega))

/-- Bit position `q` of a message is bit `7 - q` of its byte, counted from the byte's first bit. -/
theorem textToBits_getElem?_of_mem_byte {m : List Byte} {i : Nat} {v : Byte} (h : m[i]? = some v)
    {q : Nat} (hlo : 8 * i ≤ q) (hhi : q < 8 * i + 8) :
    (textToBits m)[q]? = some (v.getLsbD (8 * i + 7 - q)) := by
  obtain ⟨k, rfl⟩ := Nat.exists_eq_add_of_le hlo
  have hbit : 8 * i + 7 - (8 * i + k) = 7 - k := by omega
  rw [textToBits_getElem? h (by omega), hbit]

/-- The zeros at the end of the last byte begin the first run of zeros. -/
theorem firstMatch_of_trailing_zeros {m : List Byte} {v : Byte} {t : Nat}
    (hwindows : ∀ i, i + 8 ≤ (textToBits m).length →
      ((textToBits m).drop i).take 8 ≠ List.replicate 8 false)
    (hm : 1 ≤ m.length) (hv : m[m.length - 1]? = some v) (ht : t ≤ 7) (hone : v.getLsbD t = true)
    (hzeros : ∀ k, k < t → v.getLsbD k = false) :
    firstMatch (List.replicate 8 false) (payload (List.replicate 8 false) m) =
      some (8 * m.length - t + 8) := by
  have hlen := textToBits_length m
  have hbits := fun q => textToBits_getElem?_of_mem_byte hv (q := q)
  refine firstMatch_zeros (by omega) (fun j hj => hwindows j (by omega)) (.inr ?last)
    fun hmem => ?run
  case last =>
    have hbit : 8 * (m.length - 1) + 7 - (8 * m.length - t - 1) = t := by omega
    rw [hbits _ (by omega) (by omega), hbit, hone]
  case run =>
    obtain ⟨k, -, hk⟩ := true_mem_window_iff.mp hmem
    obtain ⟨hin, -⟩ := List.getElem?_eq_some_iff.mp hk
    rw [hbits _ (by omega) (by omega), hzeros _ (by omega)] at hk
    cases hk

/-- A zero byte behind an odd one, or in front, is the first run of zeros. -/
theorem firstMatch_of_zero_byte {m : List Byte} {i : Nat} (hbyte : m[i]? = some 0#8)
    (hwindows : ∀ j, j + 8 ≤ 8 * i → ((textToBits m).drop j).take 8 ≠ List.replicate 8 false)
    (hodd : i = 0 ∨ ∃ v, m[i - 1]? = some v ∧ v.getLsbD 0 = true) :
    firstMatch (List.replicate 8 false) (payload (List.replicate 8 false) m) =
      some (8 * i + 8) := by
  obtain ⟨hi, -⟩ := List.getElem?_eq_some_iff.mp hbyte
  refine firstMatch_zeros (by rw [textToBits_length]; omega) hwindows ?last fun hmem => ?run
  case last =>
    obtain rfl | hpos := Nat.eq_zero_or_pos i
    · exact .inl rfl
    · obtain ⟨v, hv, hbit⟩ := hodd.resolve_left (by omega)
      have hlow : 8 * (i - 1) + 7 - (8 * i - 1) = 0 := by omega
      exact .inr (by rw [textToBits_getElem?_of_mem_byte hv (by omega) (by omega), hlow, hbit])
  case run =>
    obtain ⟨k, hk, hbit⟩ := true_mem_window_iff.mp hmem
    rw [textToBits_getElem?_of_mem_byte hbyte (by omega) (by omega), BitVec.getLsbD_zero] at hbit
    cases hbit

/-- Settles O45: where each match begins, and the whole bytes before it. -/
theorem zeroMarkerLoss : Obligations.ZeroMarkerLoss := by
  refine ⟨fun m v t hwindows hv ht1 ht7 hone hzeros => ?trailing,
    fun m i hbyte hwindows hodd => ⟨firstMatch_of_zero_byte hbyte hwindows hodd, ?cut⟩⟩
  case trailing =>
    have hm : 1 ≤ m.length := by
      obtain ⟨l, rfl⟩ := List.getLast?_eq_some_iff.mp hv
      simp
    rw [List.getLast?_eq_getElem?] at hv
    have hmatch := firstMatch_of_trailing_zeros hwindows hm hv ht7 hone hzeros
    have hpos : 8 * m.length - t + 8 = 8 * m.length + 8 - t := by omega
    have hdiv : (8 * m.length - t) / 8 = m.length - 1 := by omega
    rw [hpos] at hmatch
    exact ⟨hmatch, by rw [bitsToText_take_payload _ (by omega), hdiv, List.dropLast_eq_take]⟩
  case cut =>
    obtain ⟨hi, -⟩ := List.getElem?_eq_some_iff.mp hbyte
    rw [bitsToText_take_payload _ (by omega), Nat.mul_div_cancel_left _ (by decide)]

end Sys2Proof.Machine
end

section
/-! PROOFS. The result codes of the commands (spec/60_exceptions.md): which code a command ends with
(R223, R224, R239) and what a failed one has left alone (R229). -/

namespace Sys2Proof.Machine

variable {s t : State} {w : Word}

/-! ### A reserved word (R223) -/

theorem issueCommand_of_reserved (h : ¬ ∃ i, decode w = .ok i) :
    issueCommand s w = .next (raise .errCmd (setCmd s w)) := by
  unfold issueCommand
  split
  next i hi => exact absurd ⟨i, hi⟩ h
  next => rfl

/-- Settles O3: the words named are those that decode to no command. -/
theorem reservedWordsEndWithErrCmd : Obligations.ReservedWordsEndWithErrCmd := by
  intro s w rest hreserved
  have hnone : ¬ ∃ i, decode w = .ok i := by
    rw [exists_decode_iff]
    rintro ⟨hzero, hlo, hhi⟩
    obtain hbits | hop := hreserved
    · exact hbits hzero
    · omega
  rw [step_writeCmd, issueCommand_of_reserved hnone]
  rfl

/-- The three ways a write to `CMD` can end: the body of a command, its refusal, or `ERR_CMD`. -/
theorem issueCommand_cases (h : issueCommand s w = .next t) :
    (∃ i, t = commandBody i (setCmd s w)) ∨ t = raise .errCfg (setCmd s w) ∨
      t = raise .errCmd (setCmd s w) := by
  by_cases hword : ∃ i, decode w = .ok i
  case pos =>
    obtain ⟨i, hi⟩ := hword
    rw [issueCommand_of_decode hi] at h
    obtain ⟨-, rfl⟩ | ⟨-, rfl⟩ := exec_cases h
    · exact .inl ⟨i, rfl⟩
    · exact .inr (.inl rfl)
  case neg =>
    rw [issueCommand_of_reserved hword] at h
    exact .inr (.inr (Host.Outcome.next.inj h).symm)

/-! ### The code a body ends with (R239) -/

theorem result_embBody (s : State) :
    (embBody s).regs.result = 1#32 ∨ (embBody s).regs.result = 2#32 := by
  obtain ⟨hok, -⟩ | ⟨hfull, -⟩ := encodingEnd_embBody s
  · exact .inl hok
  · exact .inr hfull

theorem result_extractScan (k p : Nat) (s : State) :
    (extractScan k p s).regs.result = 1#32 ∨ (extractScan k p s).regs.result = 3#32 := by
  induction k generalizing p s with
  | zero => exact .inr rfl
  | succ k ih =>
    unfold extractScan
    split
    next => exact .inl rfl
    next => exact ih (p + 1) (extractStep s p)

theorem result_extBody (s : State) :
    (extBody s).regs.result = 1#32 ∨ (extBody s).regs.result = 3#32 :=
  result_extractScan (capacityOf s) 0 (setCur s 0)

theorem result_decTail (s : State) : (decTail s).regs.result = s.regs.result := by
  obtain ⟨hres, -⟩ := decTail_scan_registers s
  exact hres

/-- No body ends with `ERR_CFG` or `ERR_CMD`, and each failure belongs to its commands. -/
theorem result_commandBody (i : Instr) (s : State) :
    (commandBody i s).regs.result = 1#32 ∨
      ((commandBody i s).regs.result = 2#32 ∧ (i = .cap ∨ i = .emb ∨ i = .enc)) ∨
      ((commandBody i s).regs.result = 3#32 ∧ (i = .ext ∨ i = .dec)) := by
  cases i with
  | t2b | b2t | mrk => exact .inl rfl
  | cap =>
    rw [commandBody]
    split
    · exact .inl rfl
    · exact .inr (.inl ⟨rfl, .inl rfl⟩)
  | emb => simpa [commandBody] using result_embBody s
  | enc => simpa [commandBody] using result_embBody (mrkBody (t2bBody s))
  | ext => simpa [commandBody] using result_extBody s
  | dec => simpa [commandBody, result_decTail] using result_extBody s

/-- Settles O50: the refusal is the same for every command, and no body ends with its code. -/
theorem illegalConfigurationIsRefused : Obligations.IllegalConfigurationIsRefused := by
  refine fun i s => ⟨exec_of_not_commandOK, fun hok => ⟨_, exec_of_commandOK hok, fun hres => ?_⟩⟩
  have hcodes := result_commandBody i s
  simp [hres] at hcodes

/-- Settles O51: a command runs its body or is refused. -/
theorem resultKindsOfEachCommand : Obligations.ResultKindsOfEachCommand := by
  intro i s t h
  obtain ⟨-, rfl⟩ | ⟨-, rfl⟩ := exec_cases h
  · exact (result_commandBody i s).imp_right .inr
  · exact .inr (.inl rfl)

/-! ### What a failed command has left alone (R229) -/

/-- An embedding that fails does so before its first access to `PIX` (R163). -/
theorem embBody_pix_of_failed (h : (embBody s).regs.result ≠ 1#32) : (embBody s).pix = s.pix := by
  obtain hfit | hover := le_or_gt (bitsLenOf s) (widthOf s * heightOf s)
  · rw [embBody_of_fits hfit] at h
    exact absurd rfl h
  · rw [embBody_of_overflow hover]
    rfl

theorem commandBody_pix_of_failed {i : Instr} (h : (commandBody i s).regs.result ≠ 1#32) :
    (commandBody i s).pix = s.pix := by
  cases i with
  | emb => exact embBody_pix_of_failed h
  | enc =>
    calc (embBody (mrkBody (t2bBody s))).pix
      _ = (mrkBody (t2bBody s)).pix := embBody_pix_of_failed h
      _ = s.pix := by rw [mrkBody_frame, t2bBody_frame]
  | t2b | b2t | mrk | cap | ext | dec => exact commandBody_pix (by decide) (by decide) s

theorem issueCommand_pix_of_failed (h : issueCommand s w = .next t) (hres : t.regs.result ≠ 1#32) :
    t.pix = s.pix := by
  obtain ⟨i, rfl⟩ | rfl | rfl := issueCommand_cases h
  · exact commandBody_pix_of_failed hres
  · rfl
  · rfl

theorem issueCommand_of_refused (h : issueCommand s w = .next t)
    (hres : t.regs.result = 4#32 ∨ t.regs.result = 5#32) :
    t = { s with regs := { s.regs with cmd := w, result := t.regs.result } } := by
  obtain ⟨i, rfl⟩ | rfl | rfl := issueCommand_cases h
  · have hcodes := result_commandBody i (setCmd s w)
    obtain hres | hres := hres <;> simp [hres] at hcodes
  · rfl
  · rfl

/-- Settles O52: the two refusals write nothing else, and `PIX` is kept after every code but
`OK`. -/
theorem failuresArePrecise : Obligations.FailuresArePrecise := by
  refine fun s t w h => ⟨issueCommand_of_refused h, fun hres => ?_, issueCommand_pix_of_failed h⟩
  refine issueCommand_pix_of_failed h ?_
  obtain hres | hres := hres <;> simp [hres]

end Sys2Proof.Machine
end

section
/-! PROOFS. The stage commands run one after the other, against `ENC` and `DEC`, whose bodies are
made of the same stages (R265): each stage ends with a code in `RESULT` that no later stage reads.
Then what each command does right after reset (R261). -/

namespace Sys2Proof.Machine

variable {s : State}

/-! ### `T2B`, `MRK`, `EMB` against `ENC` (R176) -/

theorem mrkBody_raise (k : ResultKind) (s : State) : mrkBody (raise k s) = raise k (mrkBody s) :=
  mrkBody_withResult s (resultCode k)

/-- After the first stage the second one finds the message's bits legal and room for the marker. -/
theorem mrkOK_t2bBody (h : EncOK s) : MrkOK (t2bBody s) := by
  obtain ⟨-, hM, -, hroom⟩ := h
  have hafter := t2bBody_leaves_room hroom
  have hmarker : MarkerOK (t2bBody s) := by
    rw [t2bBody_frame]
    exact hM
  exact ⟨hmarker, Nat.le_of_add_right_le hafter, hafter⟩

/-- After the second stage the third one finds the grid as `ENC` did and a legal sequence. -/
theorem embOK_withPayload (hlegal : s.sizes.Legal) (h : EncOK s) : EmbOK (withPayload s) := by
  have ⟨_, _, hg, hroom⟩ := h
  refine ⟨gridOK_mrkBody_t2bBody.mpr hg, ?_⟩
  rw [BitsOK, bitsLenOf_withPayload hlegal h, withPayload_frame hlegal h]
  exact hroom

theorem exec_mrk_after_t2b (h : EncOK s) :
    exec .mrk (raise .ok (t2bBody s)) = .next (raise .ok (withPayload s)) := by
  have hok : CommandOK .mrk (raise .ok (t2bBody s)) :=
    (commandOK_raise .mrk .ok (t2bBody s)).mpr (mrkOK_t2bBody h)
  rw [exec_of_commandOK hok, commandBody, mrkBody_raise, raise_raise, withPayload]

theorem exec_emb_after_mrk (hlegal : s.sizes.Legal) (h : EncOK s) :
    exec .emb (raise .ok (withPayload s)) = .next (embBody (withPayload s)) := by
  have hok : CommandOK .emb (raise .ok (withPayload s)) :=
    (commandOK_raise .emb .ok (withPayload s)).mpr (embOK_withPayload hlegal h)
  rw [exec_of_commandOK hok, commandBody, embBody_raise]

/-- Settles O46: no stage is refused, and none but the last leaves its `RESULT`. -/
theorem stagesComposeToEnc : Obligations.StagesComposeToEnc := by
  intro s hlegal h
  have ⟨hm, _⟩ := h
  exact ⟨_, _, _, exec_of_commandOK (i := .t2b) hm, exec_mrk_after_t2b h,
    exec_emb_after_mrk hlegal h, exec_enc_of_encOK h⟩

/-! ### `EXT`, `B2T` against `DEC` (R200) -/

theorem decTail_of_ok (h : s.regs.result = 1#32) : decTail s = raise .ok (b2tBody s) :=
  if_pos h

theorem decTail_of_notFound (h : s.regs.result = 3#32) : decTail s = setOutLen s 0 := by
  have hcode : s.regs.result ≠ resultCode .ok := by
    rw [h]
    decide
  exact if_neg hcode

/-- Settles O47: `DEC` goes on from the end of `EXT`, as `B2T` does or with no text. -/
theorem extThenB2tIsDec : Obligations.ExtThenB2tIsDec := by
  intro s t _ hc hext
  have hdec := exec_dec_of_ext hc hext
  have hbody : exec .ext s = .next (extBody s) := exec_of_commandOK (i := .ext) hc
  obtain rfl : extBody s = t := Host.Outcome.next.inj (hbody.symm.trans hext)
  obtain hres | hres := result_extBody s
  · rw [decTail_of_ok hres] at hdec
    exact .inl ⟨hres, hdec.trans (exec_of_commandOK (i := .b2t) (bitsOK_extBody hc)).symm⟩
  · rw [decTail_of_notFound hres] at hdec
    exact .inr ⟨hres, hdec⟩

/-! ### Right after reset (R261) -/

/-- The reset registers are a legal configuration for every command. -/
theorem commandOK_reset (i : Instr) : CommandOK i State.reset := by
  cases i <;> (unfold CommandOK; decide)

theorem exec_reset (i : Instr) : exec i State.reset = .next (commandBody i State.reset) :=
  exec_of_commandOK (commandOK_reset i)

/-- The reset payload, the 8 bits of the marker, overflows the reset grid, which has no pixel. -/
theorem embBody_withPayload_reset :
    embBody (withPayload State.reset) = raise .capacityError (setCur (withPayload State.reset) 0) :=
  embBody_of_overflow (withPayload_overflows configRef_legal (commandOK_reset .enc) (by decide))

/-- Settles O11: the message, the grid and the sequence are empty and the marker has 8 zero bits. -/
theorem commandsRightAfterReset : Obligations.CommandsRightAfterReset := by
  obtain ⟨hext, hdec⟩ := emptyGridIsNotFound State.reset (commandOK_reset .ext) rfl
  refine ⟨⟨_, exec_reset .t2b, rfl, ?t2b⟩, ⟨_, exec_reset .b2t, rfl, ?b2t⟩,
    ⟨_, exec_reset .mrk, rfl, ?mrk⟩, ⟨_, exec_reset .cap, rfl⟩, ⟨_, exec_reset .emb, rfl, rfl⟩,
    ⟨_, exec_reset .enc, ?encResult, ?enc⟩, ⟨_, hext, rfl, rfl, rfl⟩, ⟨_, hdec, rfl, rfl, rfl⟩⟩
  case t2b => exact bitsLenOf_t2bBody configRef_legal (commandOK_reset .t2b)
  case b2t => exact outLenOf_b2tBody State.reset
  case mrk => exact bitsSeq_mrkBody configRef_legal (commandOK_reset .mrk)
  case encResult => exact congrArg (·.regs.result) embBody_withPayload_reset
  case enc =>
    calc bitsLenOf (embBody (withPayload State.reset))
      _ = bitsLenOf (withPayload State.reset) := bitsLenOf_embBody _
      _ = 8 := bitsLenOf_withPayload configRef_legal (commandOK_reset .enc)

end Sys2Proof.Machine
end

section
/-! PROOFS. The code `ENC` answers with, against the capacity of the grid (R164, R165). -/

namespace Sys2Proof.Machine

variable {s : State}

/-- R164: an `ENC` whose payload does not fit answers `CAPACITY_ERROR` and leaves `PIX` alone. -/
theorem embBody_withPayload_result_pix_of_overflow (hlegal : s.sizes.Legal) (h : EncOK s)
    (hover : widthOf s * heightOf s < 8 * msgLenOf s + mlenOf s) :
    (embBody (withPayload s)).regs.result = 2#32 ∧ (embBody (withPayload s)).pix = s.pix := by
  rw [embBody_of_overflow (withPayload_overflows hlegal h hover), withPayload_frame hlegal h]
  exact ⟨rfl, rfl⟩

/-- R165: a grid without pixels is too small for every payload, which has at least the marker. -/
theorem payload_overflows_empty_grid (h : EncOK s) (hempty : widthOf s * heightOf s = 0) :
    widthOf s * heightOf s < 8 * msgLenOf s + mlenOf s := by
  obtain ⟨-, ⟨hM, -⟩, -⟩ := h
  omega

/-- Settles O27: one lemma for each outcome of the capacity check; a grid without pixels is a case
of the overflow. -/
theorem encSignalsCapacityExactly : Obligations.EncSignalsCapacityExactly := by
  refine fun s hlegal h => ⟨_, exec_enc_of_encOK h,
    embBody_withPayload_result_pix_of_overflow hlegal h, result_commandBody_enc hlegal h,
    fun hempty => ?_⟩
  obtain ⟨hres, -⟩ := embBody_withPayload_result_pix_of_overflow hlegal h
    (payload_overflows_empty_grid h hempty)
  exact hres

end Sys2Proof.Machine
end
